-- ==== Sys2Proof/Word.lean ====
section
/-! DEFINITION. The words of the block: the fixed control widths (00_scope.md R13).

The two quantities whose width is a parameter of the instance have no type of their own. A packed row, and the
contents of a row register, is an unsigned integer of `N_MAX` bits whose bit `k` is column `k` (20_memory.md R47); a
cell is an unsigned integer of `CELL_W` bits (00_scope.md R11). `N_MAX` and `CELL_W` are data of the instance, so both
are natural numbers, and the invariant of `Safety.lean` states their widths (log 8). -/

namespace Sys2Proof

/-- The command word `CMD`, 32 bits (30_encoding.md R70). -/
abbrev CmdWord := BitVec 32

/-- The status word `STS`, 32 bits (30_encoding.md R75). -/
abbrev StsWord := BitVec 32

/-- A dimension, a column counter or a row index: 16 bits, unsigned (00_scope.md R13). -/
abbrev Dim := BitVec 16

/-- The operation field of a command word, 4 bits (30_encoding.md R70). -/
abbrev OpField := BitVec 4

/-- A phase code, 3 bits (30_encoding.md R81). -/
abbrev PhaseCode := BitVec 3

/-- `mask(n) = 2^n − 1` (00_scope.md R16). -/
def mask (n : Nat) : Nat := 2 ^ n - 1

end Sys2Proof
end

