-- ==== Sys2Proof/Config.lean ====
section
/-! DEFINITION. What an instance of the block fixes (00_scope.md section 4), and the two free values. -/

namespace Sys2Proof

/-- What the sequencer does with a column that has no pivot (00_scope.md R12). -/
inductive SingPolicy
  /-- The column is left alone: M_PIVOT goes to M_NEXT. -/
  | skip
  /-- M_ELIM runs with row `j` as it stands. -/
  | degenerate
deriving DecidableEq, Repr

/-- The parameters of an instance (00_scope.md R10, R11, R12). -/
structure Config where
  /-- `N_MAX`: the largest dimension, the number of rows of each store and the width of a row. -/
  nMax : Nat
  /-- `CELL_W`: the width in bits of a cell at the boundary. -/
  cellW : Nat
  /-- `SING_POLICY`. -/
  policy : SingPolicy
deriving DecidableEq, Repr

/-- The reference instance: `N_MAX` = 32, `CELL_W` = 1, `SING_POLICY` = SKIP (00_scope.md R10, R11, R12). -/
def Config.reference : Config := { nMax := 32, cellW := 1, policy := .skip }

/-- FREE VALUE. What a read of row `i` gives where the store has no row `i`. 20_memory.md R49 and
41_inverter.md R109 say that no micro-operation makes such a read; nothing is known of it (log 11). -/
opaque Config.strayRow (i : Nat) : Nat

/-- FREE VALUE. What M_INIT loads into row `i` where item `i` of `IB` is not of the form the latched
operation takes. 10_state.md R26, R33 and R42 say that acceptance never leaves such an item; nothing is
known of it (log 11). -/
opaque Config.strayLoad (i : Nat) : Nat

end Sys2Proof
end

