-- ==== Sys2Proof/Syntax.lean ====
section
/-! DEFINITION. The instructions: the four commands of the command word and the six micro-operations
of the sequencer (30_encoding.md R71, R81), one constructor per row of spec/opcode_table.json. -/

namespace Sys2Proof

/-- The ten rows of the opcode table. A command's payload is not part of its word: it stands in the
request (10_state.md R40). -/
inductive Instr
  /-- UNPACK: one packed row to one bit sequence (40_codec.md R90). -/
  | unpack (n : Dim)
  /-- PACK: one bit sequence to one packed row (40_codec.md R91). -/
  | pack (n : Dim)
  /-- INVG: invert a bit grid (41_inverter.md R100). -/
  | invg (n : Dim) (strict : Bool)
  /-- INVP: invert a packed matrix (42_pipeline.md R130). -/
  | invp (n : Dim) (strict : Bool)
  /-- M_INIT (41_inverter.md R101). -/
  | mInit
  /-- M_PIVOT (41_inverter.md R102). -/
  | mPivot
  /-- M_SWAP (41_inverter.md R103). -/
  | mSwap
  /-- M_ELIM (41_inverter.md R104). -/
  | mElim
  /-- M_NEXT (41_inverter.md R105). -/
  | mNext
  /-- M_FIN (41_inverter.md R106). -/
  | mFin
deriving DecidableEq, Repr

/-- The sequencer's phases (10_state.md R27). The eighth code of the 3-bit register, 7, is never
reached, and R81 lets a model leave it out (log 7). -/
inductive Phase
  | idle | init | pivot | swap | elim | next | fin
deriving DecidableEq, Repr

/-- The operations that `CMDR.op` can hold: acceptance latches INVG and INVP alone (10_state.md R33; log 6). -/
inductive InvOp
  | invg | invp
deriving DecidableEq, Repr

/-- An encoded instruction: a command is a 32-bit command word, a micro-operation a 3-bit phase code
(30_encoding.md R65, R81). -/
inductive Encoding
  | cmd (w : CmdWord)
  | phase (c : PhaseCode)
deriving DecidableEq, Repr

end Sys2Proof
end

