-- ==== Sys2Proof/WellFormed.lean ====
section
/-! DEFINITION. Which configurations and which instructions the spec admits. An instruction whose
dimension is not admitted is still encodable and still runs: it is rejected with InvalidDimension
(60_exceptions.md R152). -/

namespace Sys2Proof

/-- 1 ≤ `N_MAX` ≤ 65535 and `CELL_W` ≥ 1 (00_scope.md R10, R11). -/
abbrev Config.WellFormed (c : Config) : Prop := 1 ≤ c.nMax ∧ c.nMax ≤ 65535 ∧ 1 ≤ c.cellW

/-- A dimension that an instance supports: 1 ≤ n ≤ `N_MAX` (00_scope.md R9, R10). -/
abbrev Dim.WellFormed (c : Config) (n : Dim) : Prop := 1 ≤ n.toNat ∧ n.toNat ≤ c.nMax

/-- A command's dimension is one the instance supports; a micro-operation has no operand. -/
abbrev Instr.WellFormed (c : Config) (i : Instr) : Prop :=
  match i with
  | .unpack n => Dim.WellFormed c n
  | .pack n => Dim.WellFormed c n
  | .invg n _ => Dim.WellFormed c n
  | .invp n _ => Dim.WellFormed c n
  | .mInit => True
  | .mPivot => True
  | .mSwap => True
  | .mElim => True
  | .mNext => True
  | .mFin => True

end Sys2Proof
end

