-- ==== Sys2Proof/Decode.lean ====
section
/-! DEFINITION. The decoder of the command word and of the phase code, and the encoder
(30_encoding.md R70 to R74, R79, R81, R85). -/

namespace Sys2Proof

/-- Why a word or a code is no instruction. The block reports every illegal command word with the one
error IllegalCommand (60_exceptions.md R151); the reason is the model's own name for the clause of
30_encoding.md R79 that failed (log 21). -/
inductive DecodeError
  /-- `CMD[31:24]` or `CMD[7:5]` is not 0. -/
  | reservedBits
  /-- `op` is 0x0 or 0x5 to 0xF. -/
  | illegalOp
  /-- `strict` is set on UNPACK or PACK. -/
  | strictOnCodec
  /-- The phase code is 0 (IDLE: no micro-operation) or 7 (no phase). -/
  | noMicroOp
deriving DecidableEq, Repr

/-! ## The fields of the command word (R70) -/

/-- `op`, `CMD[3:0]`. -/
def cmdOp (w : CmdWord) : OpField := w.extractLsb' 0 4

/-- `strict`, `CMD[4]`. -/
def cmdStrict (w : CmdWord) : Bool := w.getLsbD 4

/-- `rsv0`, `CMD[7:5]`. -/
def cmdRsv0 (w : CmdWord) : BitVec 3 := w.extractLsb' 5 3

/-- `n`, `CMD[23:8]`. -/
def cmdDim (w : CmdWord) : Dim := w.extractLsb' 8 16

/-- `rsv1`, `CMD[31:24]`. -/
def cmdRsv1 (w : CmdWord) : BitVec 8 := w.extractLsb' 24 8

/-- The command word with these fields, its reserved fields 0 (R70). -/
def commandWord (op : OpField) (strict : Bool) (n : Dim) : CmdWord :=
  0#8 ++ n ++ 0#3 ++ BitVec.ofBool strict ++ op

/-! ## The phase codes (R81) -/

/-- The code of a phase. -/
def phaseCode : Phase → PhaseCode
  | .idle => 0
  | .init => 1
  | .pivot => 2
  | .swap => 3
  | .elim => 4
  | .next => 5
  | .fin => 6

/-- The phase of a code; 7 is no phase (93_implementation_defined.md U10). -/
def phaseOfCode (c : PhaseCode) : Option Phase :=
  match c.toNat with
  | 0 => some .idle
  | 1 => some .init
  | 2 => some .pivot
  | 3 => some .swap
  | 4 => some .elim
  | 5 => some .next
  | 6 => some .fin
  | _ => none

/-- The micro-operation a phase enables; IDLE enables none (R81; 10_state.md R27). -/
def microOpOf : Phase → Option Instr
  | .idle => none
  | .init => some .mInit
  | .pivot => some .mPivot
  | .swap => some .mSwap
  | .elim => some .mElim
  | .next => some .mNext
  | .fin => some .mFin

/-- The code of a latched operation in `CMDR.op`, as in R71. -/
def invOpCode : InvOp → OpField
  | .invg => 3
  | .invp => 4

/-! ## Decoding -/

/-- R85, in its order: reserved bits, then `op`, then `strict` on the codec's commands. -/
def decodeCommand (w : CmdWord) : Except DecodeError Instr :=
  if cmdRsv1 w ≠ 0 ∨ cmdRsv0 w ≠ 0 then .error .reservedBits
  else
    match (cmdOp w).toNat with
    | 1 => if cmdStrict w then .error .strictOnCodec else .ok (.unpack (cmdDim w))
    | 2 => if cmdStrict w then .error .strictOnCodec else .ok (.pack (cmdDim w))
    | 3 => .ok (.invg (cmdDim w) (cmdStrict w))
    | 4 => .ok (.invp (cmdDim w) (cmdStrict w))
    | _ => .error .illegalOp

/-- The micro-operation that the phase code enables (R81). -/
def decodePhase (c : PhaseCode) : Except DecodeError Instr :=
  match (phaseOfCode c).bind microOpOf with
  | some i => .ok i
  | none => .error .noMicroOp

/-- Decoding of either kind of encoding. -/
def decode : Encoding → Except DecodeError Instr
  | .cmd w => decodeCommand w
  | .phase c => decodePhase c

/-! ## Encoding -/

/-- The encoding of an instruction (R70 to R74, R81). -/
def encode : Instr → Encoding
  | .unpack n => .cmd (commandWord 1 false n)
  | .pack n => .cmd (commandWord 2 false n)
  | .invg n strict => .cmd (commandWord 3 strict n)
  | .invp n strict => .cmd (commandWord 4 strict n)
  | .mInit => .phase 1
  | .mPivot => .phase 2
  | .mSwap => .phase 3
  | .mElim => .phase 4
  | .mNext => .phase 5
  | .mFin => .phase 6

/-- What the decoder reads from a word of the opcode table's numbering. The table has rows of 32 bits
(format CMD) and rows of 3 bits (format PHASE), and 3 bits are one whole byte, so a row of at most
8 bits is a phase code, with the bits above the code 0 (log 19). -/
def decodeTableWord (nbits w : Nat) : Option Instr :=
  if nbits ≤ 8 then
    if w < 8 then (decodePhase (BitVec.ofNat 3 w)).toOption else none
  else
    if w < 2 ^ 32 then (decodeCommand (BitVec.ofNat 32 w)).toOption else none

end Sys2Proof
end

