-- ==== Sys2Proof/Machine/State.lean ====
section
/-! DEFINITION. The state of the block (10_state.md R20), its messages (R40, R41), its errors
(60_exceptions.md R150), the reasons a step can stop, and the state after reset (R43). -/

namespace Sys2Proof.Machine

/-- One item of a payload or of the request buffer (10_state.md R40; 20_memory.md R45). -/
inductive Item
  /-- A packed row (30_encoding.md R66). -/
  | row (r : Nat)
  /-- A bit sequence: an ordered list of cells that carries its length (R67). -/
  | cells (cs : List Nat)
deriving DecidableEq, Repr

/-- A request message: the command word and the payload (10_state.md R40). -/
structure Request where
  cmd : CmdWord
  payload : List Item
deriving DecidableEq, Repr

/-- A response message: the status word and the payload, possibly empty (10_state.md R41). -/
structure Response where
  sts : StsWord
  payload : List Item
deriving DecidableEq, Repr

/-- The four errors the block can report (60_exceptions.md R150). They are next states of the machine,
not faults of the model: an error ends its command with a response and the block goes on. -/
inductive ErrorKind
  /-- The word is no command (R151). -/
  | illegalCommand
  /-- `n` or the payload's shape is wrong (R152). -/
  | invalidDimension
  /-- A cell is 2 or more (R153). -/
  | invalidBitValue
  /-- A strict inversion of a singular matrix (R154). -/
  | notInvertible
deriving DecidableEq, Repr

/-- The latched command `CMDR` (10_state.md R33). -/
structure Cmdr where
  op : InvOp
  strict : Bool
  n : Dim
deriving DecidableEq, Repr

/-- Why the machine is stuck. Both are the model's stops where there is no step to take (log 14); the
machine's own `step` reaches neither. -/
inductive Fault
  /-- Raised by a command's meaning in a phase other than IDLE (U12) and by a micro-operation's meaning in a
  phase other than its own (10_state.md R27). Safe: the spec gives no step there (log 14). -/
  | notEnabled
  /-- Raised by a command's meaning where the host has no request on offer. The model's own, no rule gives
  it. Safe: acceptance takes a request, and there is none (log 14). -/
  | noRequest
deriving DecidableEq, Repr

/-- Why the model gives no meaning. -/
inductive Refusal
  /-- Raised by `exec` for an instruction without a meaning; no instruction is left so. Safe. -/
  | notModelled (mnemonic : String)
  /-- Raised by a command's meaning where a payload item is wider than its type, a packed row of 2^N_MAX or
  more or a cell of 2^CELL_W or more: "the request type cannot hold it", treatment `refuse`
  (93_implementation_defined.md U13). Safe: no such request exists (log 9). -/
  | itemTooWide
deriving DecidableEq, Repr

/-- The block, with its parameters and its two message channels. -/
structure State where
  /-- The parameters: configuration, not state of the block (R20); no step changes them (log 1). -/
  cfg : Config
  /-- The host's requests on offer, not yet accepted, first in front (R40, R184; log 2). -/
  requests : List Request
  /-- The responses emitted so far, oldest first (R41; log 2). -/
  responses : List Response
  /-- The working store `W` (R21). -/
  W : List Nat
  /-- The companion store `C` (R22). -/
  C : List Nat
  /-- The request buffer `IB` (R26). -/
  IB : List Item
  /-- The latched command `CMDR` (R33). -/
  cmdr : Cmdr
  /-- The phase `ph` (R27). -/
  ph : Phase
  /-- The column counter `j` (R28). -/
  j : Dim
  /-- The pivot index `p` (R30). -/
  p : Dim
  /-- The flag `found` (R31). -/
  found : Bool
  /-- The flag `INV` (R32). -/
  inv : Bool
deriving DecidableEq, Repr

/-- The block of an instance right after reset: `ph` is IDLE, and every other register, which R43 leaves
unspecified, holds the value the model names (log 5). -/
def State.resetOf (c : Config) : State :=
  { cfg := c
    requests := []
    responses := []
    W := List.replicate c.nMax 0
    C := List.replicate c.nMax 0
    IB := List.replicate c.nMax (.row 0)
    cmdr := { op := .invp, strict := false, n := 0 }
    ph := .idle
    j := 0
    p := 0
    found := false
    inv := false }

/-- The reference instance right after reset. -/
def State.reset : State := State.resetOf Config.reference

end Sys2Proof.Machine
end

