-- ==== Sys2Proof/Machine/Flags.lean ====
section
/-! DEFINITION. The status word (30_encoding.md R75, R76) and the flag computations of the sequencer
(10_state.md R31, R32). -/

namespace Sys2Proof.Machine

/-- The code of an error in `STS.err` (R76). -/
def errorCode : ErrorKind → BitVec 4
  | .invalidDimension => 1
  | .invalidBitValue => 2
  | .notInvertible => 3
  | .illegalCommand => 4

/-- The status word with these fields, its reserved fields 0 (R75). -/
def statusWord (ok inv : Bool) (err : BitVec 4) : StsWord :=
  0#24 ++ err ++ 0#2 ++ BitVec.ofBool inv ++ BitVec.ofBool ok

/-- `STS_OK`, 0x00000001: UNPACK or PACK done (R75). -/
def stsOk : StsWord := statusWord true false 0

/-- INVG or INVP done, with the `invertible` result (R75). -/
def stsInverse (inv : Bool) : StsWord := statusWord true inv 0

/-- The command failed with this error: `ok` = 0, `inv` = 0 (60_exceptions.md R156). -/
def stsError (e : ErrorKind) : StsWord := statusWord false false (errorCode e)

/-- `STS.ok`, bit 0. -/
def stsOkBit (w : StsWord) : Bool := w.getLsbD 0

/-- `STS.inv`, bit 1. -/
def stsInvBit (w : StsWord) : Bool := w.getLsbD 1

/-- `STS.err`, bits 7:4. -/
def stsErr (w : StsWord) : BitVec 4 := w.extractLsb' 4 4

/-- `INV` after M_PIVOT: cleared by a column without a pivot, never set (10_state.md R32). -/
def invAfterScan (inv found : Bool) : Bool := inv && found

/-- The phase after M_PIVOT (10_state.md R29): the sequencer's choice from `found` and the policy. -/
def phaseAfterScan (policy : SingPolicy) (found : Bool) : Phase :=
  match found, policy with
  | true, _ => .swap
  | false, .skip => .next
  | false, .degenerate => .elim

end Sys2Proof.Machine
end

