-- ==== Sys2Proof/Machine/Operands.lean ====
section
/-! DEFINITION. The operand forms: packed rows, bit sequences and grids (30_encoding.md R66 to R69), their
conversions (40_codec.md R92, R93) and the checks of a payload's shape and cells (60_exceptions.md R152,
R153). -/

namespace Sys2Proof.Machine

/-! ## The codec's two functions -/

/-- `unpack_seq(row, n)`: cell `k` is bit `k` of the row, for `k` in [0,n) (R92). -/
def unpackSeq (r : Nat) (n : Nat) : List Nat :=
  (List.range n).map fun k => (r.testBit k).toNat

/-- `pack_seq(bits)`: the sum of `bits[k] · 2^k` (R93), written from the last cell down. -/
def packSeq : List Nat → Nat
  | [] => 0
  | b :: bs => b + 2 * packSeq bs

/-! ## Items -/

/-- The packed row an item is, if it is one. -/
def asRow : Item → Option Nat
  | .row r => some r
  | .cells _ => none

/-- The bit sequence an item is, if it is one. -/
def asCells : Item → Option (List Nat)
  | .row _ => none
  | .cells cs => some cs

/-- The item is a packed row. -/
def isRow (it : Item) : Bool := (asRow it).isSome

/-- The item is a bit sequence of exactly `n` cells (R67). -/
def isSeqOf (n : Nat) : Item → Bool
  | .row _ => false
  | .cells cs => cs.length == n

/-- Some cell of the item has a value of 2 or more (60_exceptions.md R153). -/
def hasBadCell : Item → Bool
  | .row _ => false
  | .cells cs => cs.any (fun c => decide (2 ≤ c))

/-- The item is no wider than its type: a packed row has `N_MAX` bits, a cell `CELL_W` bits (R66, R67;
93_implementation_defined.md U13). -/
def itemFits (c : Config) : Item → Bool
  | .row r => decide (r < 2 ^ c.nMax)
  | .cells cs => cs.all (fun x => decide (x < 2 ^ c.cellW))

/-- Every item of a payload fits its type. -/
def payloadFits (c : Config) (payload : List Item) : Bool := payload.all (itemFits c)

/-- The dimension is one the instance supports: conditions 1 and 2 of R152 do not hold. -/
def dimensionLegal (c : Config) (n : Dim) : Bool := decide (1 ≤ n.toNat) && decide (n.toNat ≤ c.nMax)

/-! ## What acceptance decides (10_state.md R42) -/

/-- The outcome of a command's checks. -/
inductive Verdict
  /-- The command is rejected with this error. -/
  | raise (e : ErrorKind)
  /-- The command completes inside acceptance, with this response payload (UNPACK, PACK). -/
  | done (payload : List Item)
  /-- The command is latched and the sequencer starts (INVG, INVP). -/
  | start (op : InvOp) (strict : Bool)
deriving DecidableEq, Repr

/-- UNPACK's checks and result, in the order of 60_exceptions.md R155 (40_codec.md R90). -/
def unpackVerdict (c : Config) (n : Dim) (payload : List Item) : Verdict :=
  if dimensionLegal c n then
    match payload with
    | [.row r] => .done [.cells (unpackSeq r n.toNat)]
    | _ => .raise .invalidDimension
  else .raise .invalidDimension

/-- PACK's checks and result, in the order of 60_exceptions.md R155 (40_codec.md R91). -/
def packVerdict (c : Config) (n : Dim) (payload : List Item) : Verdict :=
  if dimensionLegal c n then
    match payload with
    | [.cells cs] =>
      if cs.length = n.toNat then
        if hasBadCell (.cells cs) then .raise .invalidBitValue
        else .done [.row (packSeq cs)]
      else .raise .invalidDimension
    | _ => .raise .invalidDimension
  else .raise .invalidDimension

/-- INVG's checks, in the order of 60_exceptions.md R155 (41_inverter.md R100). -/
def invgVerdict (c : Config) (n : Dim) (strict : Bool) (payload : List Item) : Verdict :=
  if dimensionLegal c n then
    if payload.length = n.toNat ∧ payload.all (isSeqOf n.toNat) then
      if payload.any hasBadCell then .raise .invalidBitValue
      else .start .invg strict
    else .raise .invalidDimension
  else .raise .invalidDimension

/-- INVP's checks, in the order of 60_exceptions.md R155 (42_pipeline.md R130). That the items are packed rows
is part of the shape R69 asks for (log 10). -/
def invpVerdict (c : Config) (n : Dim) (strict : Bool) (payload : List Item) : Verdict :=
  if dimensionLegal c n then
    if payload.length = n.toNat ∧ payload.all isRow then .start .invp strict
    else .raise .invalidDimension
  else .raise .invalidDimension

/-! ## Loads and stores of the sequencer (42_pipeline.md R133) -/

/-- The row M_INIT loads from item `i` of `IB` (41_inverter.md R101): for INVG each cell's low bit, for INVP
the packed row's bits below `n`; bits at or above `n` are 0 in both. An item of another form is never there. -/
def loadItem (op : InvOp) (n i : Nat) : Option Item → Nat
  | some (.cells cs) =>
    match op with
    | .invg => packSeq ((cs.take n).map (· % 2))
    | .invp => Config.strayLoad i
  | some (.row r) =>
    match op with
    | .invg => Config.strayLoad i
    | .invp => r % 2 ^ n
  | none => Config.strayLoad i

/-- The payload item M_FIN makes from a row of `C`: for INVG its `n` bits as cells, for INVP the row as it stands
(41_inverter.md R106). -/
def storeItem (op : InvOp) (n : Nat) (r : Nat) : Item :=
  match op with
  | .invg => .cells (unpackSeq r n)
  | .invp => .row r

/-! ## A payload of zeros (for `State.withFetchWord`) -/

/-- The payload of the shape a command takes, all of its bits 0. A command whose dimension the instance does not
support is rejected whatever its payload, and gets an empty one (log 19). -/
def zeroPayload (c : Config) (i : Instr) : List Item :=
  match i with
  | .unpack _ => [.row 0]
  | .pack n => if dimensionLegal c n then [.cells (List.replicate n.toNat 0)] else []
  | .invg n _ =>
    if dimensionLegal c n then List.replicate n.toNat (.cells (List.replicate n.toNat 0)) else []
  | .invp n _ => if dimensionLegal c n then List.replicate n.toNat (.row 0) else []
  | .mInit => []
  | .mPivot => []
  | .mSwap => []
  | .mElim => []
  | .mNext => []
  | .mFin => []

end Sys2Proof.Machine
end

