-- ==== Sys2Proof/Machine/Ops.lean ====
section
/-! DEFINITION. The shared operations: the row stores, the messages, raising an error (60_exceptions.md R156),
acceptance (10_state.md R42), and what the sequencer runs next. -/

namespace Sys2Proof.Machine

/-! ## The row stores (20_memory.md R45, R49) -/

/-- A store is in its one form: it has `N_MAX` rows and each is an `N_MAX`-bit value (10_state.md R21, R22;
log 18). -/
def Memory.wf (c : Config) (rows : List Nat) : Bool :=
  decide (rows.length = c.nMax) && rows.all (fun r => decide (r < 2 ^ c.nMax))

/-- Read row `i` of a store (00_scope.md R17). A store has every row that a micro-operation reads (R109). -/
def readRow (rows : List Nat) (i : Nat) : Nat := (rows[i]?).getD (Config.strayRow i)

/-- Read bit `k` of row `i`: the grid entry at row `i`, column `k` (00_scope.md R17). -/
def readBit (rows : List Nat) (i k : Nat) : Bool := (readRow rows i).testBit k

/-- Rows 0 to n−1 of `W` loaded from `IB`, the rest as they were (41_inverter.md R101). -/
def loadRows (op : InvOp) (n : Nat) (ib : List Item) (rows : List Nat) : List Nat :=
  rows.mapIdx fun i old => if i < n then loadItem op n i ib[i]? else old

/-- Rows 0 to n−1 of `C` set to those of the identity, the rest as they were (41_inverter.md R101). -/
def identityRows (n : Nat) (rows : List Nat) : List Nat :=
  rows.mapIdx fun i old => if i < n then 1 <<< i else old

/-- The least row `i` with `j ≤ i < n` whose bit `j` is 1 (41_inverter.md R102). -/
def findPivot (rows : List Nat) (n j : Nat) : Option Nat :=
  (List.range n).find? fun i => decide (j ≤ i) && readBit rows i j

/-- Rows `j` and `p` exchanged, both read before either is written (41_inverter.md R103). -/
def swapRows (j p : Nat) (rows : List Nat) : List Nat :=
  (rows.set j (readRow rows p)).set p (readRow rows j)

/-- Row `i` is one that M_ELIM changes: the set `E`, taken from the working store before the step
(41_inverter.md R104). -/
def inElimSet (w : List Nat) (n j i : Nat) : Bool :=
  decide (i < n) && decide (i ≠ j) && readBit w i j

/-- Row `j` of a store XORed into each of its rows in `E` (41_inverter.md R104). -/
def elimRows (w : List Nat) (n j : Nat) (rows : List Nat) : List Nat :=
  rows.mapIdx fun i r => if inElimSet w n j i then r ^^^ readRow rows j else r

/-- The items of an accepted payload copied to `IB[0..n−1]`, the rest as they were (10_state.md R42). -/
def latchItems (n : Nat) (payload ib : List Item) : List Item :=
  ib.mapIdx fun i old => if i < n then (payload[i]?).getD old else old

/-! ## Messages (10_state.md R40, R41) -/

/-- `respond(sts, payload)`: emit a response (R41). -/
def State.respond (s : State) (sts : StsWord) (payload : List Item) : State :=
  { s with responses := s.responses ++ [{ sts := sts, payload := payload }] }

/-- The request at the front is taken from the host (log 20). -/
def State.takeRequest (s : State) : State := { s with requests := s.requests.tail }

/-- Go to a phase: `ph <- X` (00_scope.md R17). -/
def State.toPhase (s : State) (ph : Phase) : State := { s with ph := ph }

/-- Latch an accepted INVG or INVP and start the sequencer (10_state.md R42, step 3). -/
def State.latch (s : State) (op : InvOp) (strict : Bool) (n : Dim) (payload : List Item) : State :=
  { s with
    cmdr := { op := op, strict := strict, n := n }
    IB := latchItems n.toNat payload s.IB
    ph := .init }

/-! ## Raising an error: the block's one exception entry -/

/-- `raise E` at acceptance (60_exceptions.md R156): the request is answered with the error's status word and an
empty payload, no register is written, and the phase stays IDLE. There is no saved state, no handler and no return
operation (R156, R158). -/
def State.raise (s : State) (e : ErrorKind) : State := s.takeRequest.respond (stsError e) []

/-! ## Acceptance (10_state.md R42) -/

/-- What acceptance does once the checks have decided. -/
def State.conclude (s : State) (n : Dim) (payload : List Item) : Verdict → State
  | .raise e => s.raise e
  | .done out => s.takeRequest.respond stsOk out
  | .start op strict => s.takeRequest.latch op strict n payload

/-- Accept the request at the front as a command of dimension `n` whose checks are `verdict`. Enabled only in IDLE
with a request on offer (R42, R184; log 14). An item wider than its type is refused (U13; log 9). -/
def accept (s : State) (n : Dim) (verdict : List Item → Verdict) : Host.Outcome State Fault Refusal :=
  match s.ph with
  | .idle =>
    match s.requests with
    | [] => .fault .noRequest
    | r :: _ =>
      if payloadFits s.cfg r.payload then .next (s.conclude n r.payload (verdict r.payload))
      else .refused .itemTooWide
  | _ => .fault .notEnabled

/-! ## Micro-operations -/

/-- Run a micro-operation if its phase is the current one; no other micro-operation is enabled (10_state.md R27). -/
def whenPhase (s : State) (ph : Phase) (f : State → State) : Host.Outcome State Fault Refusal :=
  if s.ph = ph then .next (f s) else .fault .notEnabled

/-! ## What runs next -/

/-- What the block does in a state. -/
inductive Fetched
  /-- IDLE with nothing on offer: the block waits (60_exceptions.md R169). -/
  | wait
  /-- IDLE, and the word on offer is no command (30_encoding.md R79). -/
  | illegal (e : DecodeError)
  /-- The command on offer, or the micro-operation of the phase. -/
  | run (i : Instr)
deriving DecidableEq, Repr

/-- IDLE decodes the word of the request at the front (10_state.md R42, step 1); every other phase selects its
micro-operation (R27). -/
def fetch (s : State) : Fetched :=
  match microOpOf s.ph with
  | some i => .run i
  | none =>
    match s.requests with
    | [] => .wait
    | r :: _ =>
      match decodeCommand r.cmd with
      | .ok i => .run i
      | .error e => .illegal e

/-- Place an instruction where the block takes its next one from (log 3, log 19): a phase code in `ph`; a command
word at the front of the requests on offer, with a payload of zeros, the block in IDLE. -/
def placeWord (s : State) (nbits w : Nat) : State :=
  if nbits ≤ 8 then
    match if w < 8 then phaseOfCode (BitVec.ofNat 3 w) else none with
    | some ph => s.toPhase ph
    | none => s
  else
    let word : CmdWord := BitVec.ofNat 32 w
    let payload := match decodeCommand word with
      | .ok i => zeroPayload s.cfg i
      | .error _ => []
    { s with ph := .idle, requests := { cmd := word, payload := payload } :: s.requests }

/-! ## Moves of the host -/

/-- The host offers a request (00_scope.md R18). -/
def State.offer (s : State) (r : Request) : State := { s with requests := s.requests ++ [r] }

/-- The reset event (70_reset_and_hazards.md R180, R181), in any state: `ph` is IDLE, the registers hold what they
hold after reset, and a command in progress is abandoned without a response. The host's messages are not the block's
state and stay (log 15). -/
def State.resetEvent (s : State) : State :=
  { State.resetOf s.cfg with requests := s.requests, responses := s.responses }

end Sys2Proof.Machine
end

