-- ==== Sys2Proof/Machine/Codec.lean ====
section
/-! DEFINITION. The Bit-Matrix Codec's commands, UNPACK and PACK (40_codec.md). -/

namespace Sys2Proof.Machine

/-- UNPACK n (R90). -/
def execUnpack (n : Dim) (s : State) : Host.Outcome State Fault Refusal :=
  accept s n (unpackVerdict s.cfg n)

/-- PACK n (R91). -/
def execPack (n : Dim) (s : State) : Host.Outcome State Fault Refusal :=
  accept s n (packVerdict s.cfg n)

end Sys2Proof.Machine
end

