-- ==== Sys2Proof/Machine/Inverter.lean ====
section
/-! DEFINITION. The GF(2) Inverter: INVG and INVP at acceptance (41_inverter.md R100, 42_pipeline.md R130) and the
six micro-operations (41_inverter.md R101 to R106). -/

namespace Sys2Proof.Machine

/-- INVG n, strict (41_inverter.md R100). -/
def execInvg (n : Dim) (strict : Bool) (s : State) : Host.Outcome State Fault Refusal :=
  accept s n (invgVerdict s.cfg n strict)

/-- INVP n, strict (42_pipeline.md R130). -/
def execInvp (n : Dim) (strict : Bool) (s : State) : Host.Outcome State Fault Refusal :=
  accept s n (invpVerdict s.cfg n strict)

/-! ## The micro-operations as state changes -/

/-- M_INIT: load `W`, set `C` to the identity, clear `j`, set `INV` (R101). -/
def State.initStep (s : State) : State :=
  let n := s.cmdr.n.toNat
  { s with
    W := loadRows s.cmdr.op n s.IB s.W
    C := identityRows n s.C
    j := 0
    inv := true
    ph := .pivot }

/-- M_PIVOT: find the first row at or below the diagonal with a 1 in column `j` (R102). Without one, `p` is left
as it was (10_state.md R30). -/
def State.pivotStep (s : State) : State :=
  let pivot := findPivot s.W s.cmdr.n.toNat s.j.toNat
  { s with
    p := (pivot.map (BitVec.ofNat 16)).getD s.p
    found := pivot.isSome
    inv := invAfterScan s.inv pivot.isSome
    ph := phaseAfterScan s.cfg.policy pivot.isSome }

/-- M_SWAP: exchange rows `j` and `p` of both stores (R103). -/
def State.swapStep (s : State) : State :=
  { s with
    W := swapRows s.j.toNat s.p.toNat s.W
    C := swapRows s.j.toNat s.p.toNat s.C
    ph := .elim }

/-- M_ELIM: XOR row `j` into every row of `E`, in both stores (R104). -/
def State.elimStep (s : State) : State :=
  let n := s.cmdr.n.toNat
  { s with
    W := elimRows s.W n s.j.toNat s.W
    C := elimRows s.W n s.j.toNat s.C
    ph := .next }

/-- M_NEXT: the next column, or the end (R105). The comparison is exact (R109). -/
def State.nextStep (s : State) : State :=
  if s.j.toNat + 1 < s.cmdr.n.toNat then { s with j := s.j + 1, ph := .pivot }
  else s.toPhase .fin

/-- The response of an inversion (R106). -/
def inversionResponse (op : InvOp) (strict inv : Bool) (n : Nat) (companion : List Nat) : Response :=
  if strict && !inv then { sts := stsError .notInvertible, payload := [] }
  else
    { sts := stsInverse inv
      payload := (List.range n).map fun i => storeItem op n (readRow companion i) }

/-- M_FIN: respond, and back to IDLE (R106). -/
def State.finStep (s : State) : State :=
  let r := inversionResponse s.cmdr.op s.cmdr.strict s.inv s.cmdr.n.toNat s.C
  (s.respond r.sts r.payload).toPhase .idle

/-! ## Their meanings -/

/-- M_INIT (R101). -/
def execMInit (s : State) : Host.Outcome State Fault Refusal := whenPhase s .init State.initStep

/-- M_PIVOT (R102). -/
def execMPivot (s : State) : Host.Outcome State Fault Refusal := whenPhase s .pivot State.pivotStep

/-- M_SWAP (R103). -/
def execMSwap (s : State) : Host.Outcome State Fault Refusal := whenPhase s .swap State.swapStep

/-- M_ELIM (R104). -/
def execMElim (s : State) : Host.Outcome State Fault Refusal := whenPhase s .elim State.elimStep

/-- M_NEXT (R105). -/
def execMNext (s : State) : Host.Outcome State Fault Refusal := whenPhase s .next State.nextStep

/-- M_FIN (R106). -/
def execMFin (s : State) : Host.Outcome State Fault Refusal := whenPhase s .fin State.finStep

end Sys2Proof.Machine
end

