-- ==== Sys2Proof/Machine/Dispatch.lean ====
section
/-! DEFINITION. One arm per instruction, each a direct call of its meaning. -/

namespace Sys2Proof.Machine

def exec (i : Instr) (s : State) : Host.Outcome State Fault Refusal :=
  match i with
  | .unpack n => Sys2Proof.Machine.execUnpack n s
  | .pack n => Sys2Proof.Machine.execPack n s
  | .invg n strict => Sys2Proof.Machine.execInvg n strict s
  | .invp n strict => Sys2Proof.Machine.execInvp n strict s
  | .mInit => Sys2Proof.Machine.execMInit s
  | .mPivot => Sys2Proof.Machine.execMPivot s
  | .mSwap => Sys2Proof.Machine.execMSwap s
  | .mElim => Sys2Proof.Machine.execMElim s
  | .mNext => Sys2Proof.Machine.execMNext s
  | .mFin => Sys2Proof.Machine.execMFin s

end Sys2Proof.Machine
end

