-- ==== Sys2Proof/Machine/Step.lean ====
section
/-! DEFINITION. One step of the machine, and the placing of an instruction where the next step takes it from. -/

namespace Sys2Proof.Machine

/-- One step (00_scope.md R18): the acceptance of the request on offer, the rejection of a word that is no command,
one micro-operation, or, in IDLE with nothing on offer, waiting (log 4). -/
def step (s : State) : Host.Outcome State Fault Refusal :=
  match fetch s with
  | .wait => .next s
  | .illegal _ => .next (s.raise .illegalCommand)
  | .run i => exec i s

/-- The state whose next step runs the instruction with these bits (log 3, log 19). -/
def State.withFetchWord (s : State) (nbits w : Nat) : State := placeWord s nbits w

end Sys2Proof.Machine
end

