-- ==== Sys2Proof/Machine/Reference.lean ====
section
/-! DEFINITION. The mathematics the spec uses to say what the block computes: grids over GF(2), the product and the
companion transform (00_scope.md R14, R15), the reference function `invert_ref` (41_inverter.md R108), and the
response a whole command must give (41_inverter.md R100, 42_pipeline.md R130). None of it is run by `step`. -/

namespace Sys2Proof.Machine

/-- A grid: rows of single bits, row-major (20_memory.md R46; 30_encoding.md R68). -/
abbrev Grid := List (List Bool)

/-- The `n×n` grid with these entries. -/
def gridOf (n : Nat) (f : Nat → Nat → Bool) : Grid :=
  (List.range n).map fun i => (List.range n).map fun k => f i k

/-- Row `i` of a grid. -/
def gridRow (g : Grid) (i : Nat) : List Bool := (g[i]?).getD []

/-- `M[i][k]` (R15). -/
def entry (g : Grid) (i k : Nat) : Bool := ((gridRow g i)[k]?).getD false

/-- `I_n` (R15). -/
def identityGrid (n : Nat) : Grid := gridOf n fun i k => decide (i = k)

/-- XOR of a list of bits, or of wider elements bit by bit. -/
def xorSum (xs : List Nat) : Nat := xs.foldr (· ^^^ ·) 0

/-- XOR of a list of bits. -/
def parity (bs : List Bool) : Bool := bs.foldr xor false

/-- `A × B`, the XOR-sum of ANDed products (R15). -/
def matMul (n : Nat) (a b : Grid) : Grid :=
  gridOf n fun i k => parity ((List.range n).map fun m => entry a i m && entry b m k)

/-- `apply(M, v)`, an element of any width selected by the matrix bit (R15). -/
def apply (n : Nat) (m : Grid) (v : List Nat) : List Nat :=
  (List.range n).map fun i =>
    xorSum ((List.range n).map fun k => if entry m i k then (v[k]?).getD 0 else 0)

/-- `apply` computed from packed rows by testing `(rows[i] >> k) & 1` (42_pipeline.md R141). -/
def applyPacked (n : Nat) (rows : List Nat) (v : List Nat) : List Nat :=
  (List.range n).map fun i =>
    xorSum ((List.range n).map fun k =>
      if ((rows[i]?).getD 0 >>> k) &&& 1 = 1 then (v[k]?).getD 0 else 0)

/-! ## Grids and the block's formats -/

/-- The grid of the first `n` rows and columns of a store (10_state.md R21). -/
def storeGrid (n : Nat) (rows : List Nat) : Grid := gridOf n fun i k => readBit rows i k

/-- `unpack_grid(rows, n)` (40_codec.md R95). -/
def unpackGrid (n : Nat) (rows : List Nat) : Grid :=
  rows.map fun r => (List.range n).map fun k => r.testBit k

/-- A grid as a payload of bit sequences (30_encoding.md R68). -/
def gridItems (g : Grid) : List Item := g.map fun r => .cells (r.map Bool.toNat)

/-- `pack_grid(G)` as a payload of packed rows (40_codec.md R95). -/
def packGridItems (g : Grid) : List Item := g.map fun r => .row (packSeq (r.map Bool.toNat))

/-- Bit `k` of an item as the latched operation reads it: the cell's low bit, or the packed row's bit
(41_inverter.md R101). -/
def itemBit (op : InvOp) (k : Nat) (it : Item) : Bool :=
  match op with
  | .invg => (((asCells it).getD [])[k]?.getD 0).testBit 0
  | .invp => ((asRow it).getD 0).testBit k

/-- `original_input`: the grid M_INIT reads from a list of items (10_state.md R24). -/
def inputGrid (op : InvOp) (n : Nat) (items : List Item) : Grid :=
  gridOf n fun i k => ((items[i]?).map (itemBit op k)).getD false

/-! ## The reference function (41_inverter.md R108) -/

/-- Where `invert_ref` stands between two columns; `pivots` counts the columns that had a pivot (R117's `f`). -/
structure RefState where
  working : Grid
  companion : Grid
  invertible : Bool
  pivots : Nat
deriving DecidableEq, Repr

/-- The least `i` in [j,n) with `working[i][j] = 1`, or none. -/
def refPivot (working : Grid) (n j : Nat) : Option Nat :=
  (List.range' j (n - j)).find? fun i => entry working i j

/-- Rows `p` and `j` swapped. -/
def refSwap (p j : Nat) (g : Grid) : Grid := (g.set p (gridRow g j)).set j (gridRow g p)

/-- The XOR of two rows, element-wise. -/
def xorRow (a b : List Bool) : List Bool := List.zipWith xor a b

/-- One turn of the inner loop, for row `i`: the row is read as the loop goes. -/
def refRow (j : Nat) (wc : Grid × Grid) (i : Nat) : Grid × Grid :=
  if i ≠ j ∧ entry wc.1 i j = true then
    (wc.1.set i (xorRow (gridRow wc.1 i) (gridRow wc.1 j)),
     wc.2.set i (xorRow (gridRow wc.2 i) (gridRow wc.2 j)))
  else wc

/-- The inner loop over the rows in this order. -/
def refEliminate (j : Nat) (order : List Nat) (wc : Grid × Grid) : Grid × Grid :=
  order.foldl (refRow j) wc

/-- One turn of the outer loop, for column `j`. -/
def refColumn (n : Nat) (policy : SingPolicy) (st : RefState) (j : Nat) : RefState :=
  match refPivot st.working n j, policy with
  | some p, _ =>
    let wc := refEliminate j (List.range n) (refSwap p j st.working, refSwap p j st.companion)
    { st with working := wc.1, companion := wc.2, pivots := st.pivots + 1 }
  | none, .skip => { st with invertible := false }
  | none, .degenerate =>
    let wc := refEliminate j (List.range n) (st.working, st.companion)
    { st with working := wc.1, companion := wc.2, invertible := false }

/-- The whole loop: the state of `invert_ref` when it returns. -/
def refRun (m : Grid) (n : Nat) (policy : SingPolicy) : RefState :=
  (List.range n).foldl (refColumn n policy)
    { working := m, companion := identityGrid n, invertible := true, pivots := 0 }

/-- `invert_ref(M, n, policy)`. -/
def invertRef (m : Grid) (n : Nat) (policy : SingPolicy) : Grid × Bool :=
  let st := refRun m n policy
  (st.companion, st.invertible)

/-- The number of micro-operations of a command (41_inverter.md R117). -/
def microOpCount (m : Grid) (n : Nat) (policy : SingPolicy) : Nat :=
  let f := (refRun m n policy).pivots
  let d := match policy with
    | .skip => 0
    | .degenerate => n - f
  2 + 2 * n + 2 * f + d

/-- The response to an inversion whose result as a payload is `payload` (41_inverter.md R100, 42_pipeline.md R130). -/
def resultResponse (strict invertible : Bool) (payload : List Item) : Response :=
  if strict && !invertible then { sts := 0x30, payload := [] }
  else { sts := if invertible then 0x3 else 0x1, payload := payload }

/-- The response of the reference function to an inversion of `m`, in the format of the operation. -/
def refResponse (op : InvOp) (strict : Bool) (m : Grid) (n : Nat) (policy : SingPolicy) : Response :=
  let r := invertRef m n policy
  resultResponse strict r.2 (match op with
    | .invg => gridItems r.1
    | .invp => packGridItems r.1)

end Sys2Proof.Machine
end

