-- ==== Sys2Proof/Safety.lean ====
section
/-! DEFINITION. What claims speak of: runs of the machine, and the invariants of its states. -/

namespace Sys2Proof.Machine

/-! ## Outcomes and runs -/

/-- The next state, where the outcome is one. -/
def nextOf : Host.Outcome State Fault Refusal → Option State
  | .next s => some s
  | .fault _ => none
  | .refused _ => none

/-- `k` steps, where none of them stops. -/
def runFor : Nat → State → Option State
  | 0, s => some s
  | k + 1, s => (nextOf (step s)).bind (runFor k)

/-- The block is handling a command. -/
abbrev State.Busy (s : State) : Prop := s.ph ≠ .idle

/-- The row stores hold the two grids of the command: M_INIT has run (10_state.md R23, R24). -/
abbrev State.Loaded (s : State) : Prop := s.ph ≠ .idle ∧ s.ph ≠ .init

/-- The dimension of the latched command, as a number. -/
abbrev State.dim (s : State) : Nat := s.cmdr.n.toNat

/-- The grid M_INIT reads from `IB`: `original_input` (10_state.md R24). -/
def State.input (s : State) : Grid := inputGrid s.cmdr.op s.dim s.IB

/-- A run from `s` completes the command in progress after exactly `k` steps, in `t`: `t` is idle and no state before
it is. -/
abbrev CompletesIn (s t : State) (k : Nat) : Prop :=
  runFor k s = some t ∧ t.ph = .idle ∧
    ∀ m < k, ((runFor m s).map fun u => decide (u.ph = .idle)) = some false

/-! ## Messages in claims -/

/-- The block is idle and the host offers `r`, with `rest` behind it. -/
abbrev State.Offers (s : State) (r : Request) (rest : List Request) : Prop := s.ph = .idle ∧ s.requests = r :: rest

/-- `s` with the request at the front answered, and nothing else changed: `rest` is still on offer. -/
def State.answered (s : State) (rest : List Request) (sts : StsWord) (payload : List Item) : State :=
  { s with requests := rest, responses := s.responses ++ [{ sts := sts, payload := payload }] }

/-- A packed row as the bit sequence UNPACK makes of it. -/
def unpackItem (n : Nat) (r : Nat) : Item := .cells (unpackSeq r n)

/-- A packed row cut to its `n` low bits. -/
def maskedItem (n : Nat) (r : Nat) : Item := .row (r &&& mask n)

/-- `g` is an `n×n` grid. -/
abbrev IsGrid (n : Nat) (g : Grid) : Prop := g.length = n ∧ ∀ r ∈ g, r.length = n

/-! ## Invariants -/

/-- An item of `IB` is of the form the latched operation takes (10_state.md R26, R33, R42). -/
def itemLegal (op : InvOp) (n : Nat) (it : Item) : Bool :=
  match op with
  | .invg => isSeqOf n it && !hasBadCell it
  | .invp => isRow it

/-- The stores have the instance's shape: `N_MAX` rows of `N_MAX` bits, `N_MAX` items that fit (R21, R22, R26). -/
abbrev State.StoresWf (s : State) : Prop :=
  Memory.wf s.cfg s.W = true ∧ Memory.wf s.cfg s.C = true ∧
    s.IB.length = s.cfg.nMax ∧ payloadFits s.cfg s.IB = true

/-- While a command is in progress, `CMDR` and `IB` hold what acceptance admits (R33). -/
abbrev State.CommandWf (s : State) : Prop :=
  s.Busy → (1 ≤ s.dim ∧ s.dim ≤ s.cfg.nMax) ∧
    (s.IB.take s.dim).all (itemLegal s.cmdr.op s.dim) = true

/-- The sequencer's registers agree with the phase (R28, R30; 41_inverter.md R109). -/
abbrev State.SequencerWf (s : State) : Prop :=
  (s.Loaded → s.j.toNat < s.dim) ∧
  (s.ph = .fin → s.j.toNat + 1 = s.dim) ∧
  (s.ph = .swap → s.j.toNat ≤ s.p.toNat ∧ s.p.toNat < s.dim ∧ readBit s.W s.p.toNat s.j.toNat = true)

/-- Bits n to `N_MAX`−1 of rows 0 to n−1 of both stores are 0 (10_state.md R23). -/
abbrev State.HighBitsZero (s : State) : Prop :=
  s.Loaded → ∀ i < s.dim, readRow s.W i < 2 ^ s.dim ∧ readRow s.C i < 2 ^ s.dim

/-- Every request on offer is one its type can hold (10_state.md R40; 93_implementation_defined.md U13). -/
abbrev State.RequestsFit (s : State) : Prop := ∀ r ∈ s.requests, payloadFits s.cfg r.payload = true

/-- The invariant of the block's states. -/
abbrev State.Wf (s : State) : Prop :=
  s.cfg.WellFormed ∧ s.StoresWf ∧ s.CommandWf ∧ s.SequencerWf ∧ s.HighBitsZero ∧ s.RequestsFit

/-- The augmented-pair invariant: working = R × original_input with R = companion (10_state.md R24). -/
abbrev State.AugmentedPair (s : State) : Prop :=
  s.Loaded → matMul s.dim (storeGrid s.dim s.C) s.input = storeGrid s.dim s.W

/-- The number of columns the sequencer has finished. -/
def State.columnsDone (s : State) : Nat :=
  match s.ph with
  | .next => s.j.toNat + 1
  | .fin => s.j.toNat + 1
  | _ => s.j.toNat

/-- While every column so far had a pivot, the columns done are those of the identity, and at M_ELIM the diagonal
entry is 1 (41_inverter.md R112, R103). -/
abbrev State.PivotProgress (s : State) : Prop :=
  s.Loaded → s.inv = true →
    (∀ k < s.columnsDone, ∀ i < s.dim, readBit s.W i k = decide (i = k)) ∧
    (s.ph = .elim → readBit s.W s.j.toNat s.j.toNat = true)

end Sys2Proof.Machine
end

