-- ==== Sys2Proof/Certificates/Slice0/Obligations.lean ====
section
/-! DEFINITION. The statements for the provers. Each docstring says which rule of spec/ it formalises. -/

open Sys2Proof Sys2Proof.Machine

/-! ## Encoding -/

/-- Every instruction, at every value of its fields, is read back from its encoding (30_encoding.md R70 to R74, R81). -/
def Obligations.DecodeOfEncodeIsIdentity : Prop :=
  ∀ i : Instr, decode (encode i) = .ok i

/-- A command word that decodes is the encoding of what it decodes to: no two words are one command, and no bit of a word
is dropped (30_encoding.md R74, R79). -/
def Obligations.EncodeOfDecodedWordIsTheWord : Prop :=
  ∀ (w : CmdWord) (i : Instr), decodeCommand w = .ok i → encode i = .cmd w

/-- 30_encoding.md R85, with the fields read arithmetically from the word's value: which words are illegal, and the
operation, `strict` and `n` of the others. -/
def Obligations.DecodeReadsTheCommandFields : Prop :=
  ∀ w : CmdWord,
    let v := w.toNat
    let op := v % 16
    let strict := v / 16 % 2 = 1
    let n : Dim := BitVec.ofNat 16 (v / 256)
    if v / 2 ^ 24 ≠ 0 ∨ v / 32 % 8 ≠ 0 ∨ op = 0 ∨ 5 ≤ op ∨ ((op = 1 ∨ op = 2) ∧ strict) then
      ∃ e, decodeCommand w = .error e
    else
      (op = 1 → decodeCommand w = .ok (.unpack n)) ∧ (op = 2 → decodeCommand w = .ok (.pack n)) ∧
      (op = 3 → decodeCommand w = .ok (.invg n (decide strict))) ∧
      (op = 4 → decodeCommand w = .ok (.invp n (decide strict)))

/-- The six example words of 30_encoding.md R74 decode to the commands they stand for, and the six phase codes of R81 to
their micro-operations. -/
def Obligations.ExampleWordsDecode : Prop :=
  decodeCommand 0x00000204 = .ok (.invp 2 false) ∧ decodeCommand 0x00002014 = .ok (.invp 32 true) ∧
  decodeCommand 0x00000303 = .ok (.invg 3 false) ∧ decodeCommand 0x00000401 = .ok (.unpack 4) ∧
  decodeCommand 0x00000402 = .ok (.pack 4) ∧ decodeCommand 0x00002004 = .ok (.invp 32 false) ∧
  decodePhase 1 = .ok .mInit ∧ decodePhase 2 = .ok .mPivot ∧ decodePhase 3 = .ok .mSwap ∧
  decodePhase 4 = .ok .mElim ∧ decodePhase 5 = .ok .mNext ∧ decodePhase 6 = .ok .mFin

/-! ## The step -/

/-- A step runs the decoded instruction and adds nothing to it: in IDLE the command of the word on offer
(10_state.md R42, step 1), in every other phase the micro-operation that the phase code selects (R27; 30_encoding.md R81). -/
def Obligations.StepRunsDecodedInstruction : Prop :=
  (∀ (s : State) (r : Request) (rest : List Request) (i : Instr),
    s.Offers r rest → decode (.cmd r.cmd) = .ok i → step s = exec i s) ∧
  (∀ (s : State) (i : Instr), decode (.phase (phaseCode s.ph)) = .ok i → step s = exec i s)

/-- A word of the table that is placed where the block takes its next instruction from is what the next step runs. How it is
placed is the model's choice (log 3, log 19). -/
def Obligations.PlacedWordIsRunNext : Prop :=
  ∀ (s : State) (nbits w : Nat) (i : Instr), decodeTableWord nbits w = some i →
    step (s.withFetchWord nbits w) = exec i (s.withFetchWord nbits w)

/-- In IDLE with nothing on offer the block waits, unchanged (60_exceptions.md R169; 70_reset_and_hazards.md R180). That
waiting is a step of its own is the model's reading (log 4). -/
def Obligations.IdleWithoutRequestWaits : Prop :=
  ∀ s : State, s.ph = .idle → s.requests = [] → step s = .next s

/-- 60_exceptions.md R151: a word that is no command is answered with IllegalCommand, whatever its payload; nothing else
changes. -/
def Obligations.IllegalCommandIsRejected : Prop :=
  ∀ (s : State) (r : Request) (rest : List Request), s.Offers r rest →
    (r.cmd.extractLsb' 24 8 ≠ 0 ∨ r.cmd.extractLsb' 5 3 ≠ 0 ∨ r.cmd.extractLsb' 0 4 = 0 ∨
      5 ≤ (r.cmd.extractLsb' 0 4).toNat ∨
      ((r.cmd.extractLsb' 0 4 = 1 ∨ r.cmd.extractLsb' 0 4 = 2) ∧ r.cmd.getLsbD 4 = true)) →
    step s = .next (s.answered rest 0x40 [])

/-- The model's stops where no step exists (log 14). The spec says only that a phase enables its own micro-operation
(10_state.md R27) and that acceptance is enabled in IDLE alone, a request waiting meanwhile (R42;
93_implementation_defined.md U12); that `exec` answers the fault `notEnabled` there is the model's choice. The fault
`noRequest`, of a command in IDLE with nothing on offer, is the model's own: no rule gives it. -/
def Obligations.NothingElseIsEnabled : Prop :=
  (∀ s : State, ∀ i ∈ [Instr.mInit, .mPivot, .mSwap, .mElim, .mNext, .mFin],
    microOpOf s.ph ≠ some i → exec i s = .fault .notEnabled) ∧
  (∀ (s : State) (n : Dim) (strict : Bool), ∀ i ∈ [Instr.unpack n, .pack n, .invg n strict, .invp n strict],
    (s.ph ≠ .idle → exec i s = .fault .notEnabled) ∧
    (s.ph = .idle → s.requests = [] → exec i s = .fault .noRequest))

/-- The model's stop: a payload item wider than its type is refused, for every command (93_implementation_defined.md U13;
log 9). -/
def Obligations.TooWideItemIsRefused : Prop :=
  ∀ (s : State) (r : Request) (rest : List Request) (n : Dim) (strict : Bool), s.Offers r rest →
    payloadFits s.cfg r.payload = false →
    ∀ i ∈ [Instr.unpack n, .pack n, .invg n strict, .invp n strict], exec i s = .refused .itemTooWide

/-! ## The codec -/

/-- 40_codec.md R92: `unpack_seq(row, n)` has `n` cells, cell `k` is `(row >> k) & 1`, and bits at or above `n` are ignored. -/
def Obligations.UnpackSelectsEachBit : Prop :=
  ∀ r n : Nat, (unpackSeq r n).length = n ∧ (∀ k < n, (unpackSeq r n)[k]? = some ((r >>> k) &&& 1)) ∧
    unpackSeq r n = unpackSeq (r &&& mask n) n

/-- 40_codec.md R93, 30_encoding.md R78: `pack_seq(bits)` is the sum of `bits[k] · 2^k`; on legal cells it is below `2^n`. -/
def Obligations.PackIsTheWeightedSum : Prop :=
  ∀ bs : List Nat,
    packSeq bs = ((List.range bs.length).map fun k => (bs[k]?).getD 0 * 2 ^ k).sum ∧
    ((∀ b ∈ bs, b < 2) → packSeq bs < 2 ^ bs.length)

/-- 40_codec.md R94: the round-trip law in both directions, and what it is for a row with bits at or above `n`. -/
def Obligations.CodecRoundTrip : Prop :=
  (∀ n x : Nat, x < 2 ^ n → packSeq (unpackSeq x n) = x) ∧
  (∀ (n : Nat) (b : List Nat), b.length = n → (∀ c ∈ b, c < 2) → unpackSeq (packSeq b) n = b) ∧
  (∀ n x : Nat, packSeq (unpackSeq x n) = x &&& mask n)

/-- UNPACK completes (40_codec.md R90): the response holds the `n` low bits of the row as cells, and no register changes. -/
def Obligations.UnpackAnswersTheBits : Prop :=
  ∀ (s : State) (w : CmdWord) (rest : List Request) (n : Dim) (r : Nat),
    s.Offers { cmd := w, payload := [.row r] } rest → Dim.WellFormed s.cfg n → r < 2 ^ s.cfg.nMax →
    exec (.unpack n) s =
      .next (s.answered rest 0x1 [.cells ((List.range n.toNat).map fun k => (r >>> k) &&& 1)])

/-- PACK completes (40_codec.md R91): the response holds the sum of the cells' weights, and no register changes. -/
def Obligations.PackAnswersTheSum : Prop :=
  ∀ (s : State) (w : CmdWord) (rest : List Request) (n : Dim) (bits : List Nat),
    s.Offers { cmd := w, payload := [.cells bits] } rest → s.cfg.WellFormed → Dim.WellFormed s.cfg n →
    bits.length = n.toNat → (∀ b ∈ bits, b < 2) →
    exec (.pack n) s =
      .next (s.answered rest 0x1 [.row ((List.range n.toNat).map fun k => (bits[k]?).getD 0 * 2 ^ k).sum])

/-- 42_pipeline.md R139, on the machine: UNPACK of `x`, then PACK of the sequence it answered, answers `x`. -/
def Obligations.UnpackThenPackReturnsTheRow : Prop :=
  ∀ (s : State) (rest : List Request) (n : Dim) (x : Nat), s.cfg.WellFormed → Dim.WellFormed s.cfg n →
    x < 2 ^ n.toNat → s.Offers { cmd := commandWord 1 false n, payload := [.row x] } rest →
    ∃ t bits, step s = .next t ∧ t = s.answered rest 0x1 [.cells bits] ∧
      ∀ rest', step { t with requests := { cmd := commandWord 2 false n, payload := [.cells bits] } :: rest' } =
        .next (t.answered rest' 0x1 [.row x])

/-! ## Errors at acceptance -/

/-- The codec's errors, in the order of 60_exceptions.md R155: a bad dimension or shape is InvalidDimension (R152), and only
then a bad cell is InvalidBitValue (R153). The request is answered, and no register changes (R156). -/
def Obligations.CodecErrorsInOrder : Prop :=
  ∀ (s : State) (r : Request) (rest : List Request) (n : Dim), s.Offers r rest → payloadFits s.cfg r.payload = true →
    (¬ Dim.WellFormed s.cfg n ∨ r.payload.length ≠ 1 → exec (.unpack n) s = .next (s.answered rest 0x10 [])) ∧
    (¬ Dim.WellFormed s.cfg n ∨ r.payload.length ≠ 1 ∨ (∃ cs, r.payload = [.cells cs] ∧ cs.length ≠ n.toNat) →
      exec (.pack n) s = .next (s.answered rest 0x10 [])) ∧
    (∀ cs, Dim.WellFormed s.cfg n → r.payload = [.cells cs] → cs.length = n.toNat → (∃ c ∈ cs, 2 ≤ c) →
      exec (.pack n) s = .next (s.answered rest 0x20 []))

/-- The inverter's errors at acceptance, in the order of 60_exceptions.md R155, for both values of `strict`. -/
def Obligations.InversionErrorsInOrder : Prop :=
  ∀ (s : State) (r : Request) (rest : List Request) (n : Dim) (strict : Bool), s.Offers r rest →
    payloadFits s.cfg r.payload = true →
    (¬ Dim.WellFormed s.cfg n ∨ r.payload.length ≠ n.toNat →
      exec (.invp n strict) s = .next (s.answered rest 0x10 [])) ∧
    (¬ Dim.WellFormed s.cfg n ∨ r.payload.length ≠ n.toNat ∨ (∃ cs, .cells cs ∈ r.payload ∧ cs.length ≠ n.toNat) →
      exec (.invg n strict) s = .next (s.answered rest 0x10 [])) ∧
    (Dim.WellFormed s.cfg n → r.payload.length = n.toNat →
      (∀ it ∈ r.payload, ∃ cs, it = .cells cs ∧ cs.length = n.toNat) →
      (∃ cs, .cells cs ∈ r.payload ∧ ∃ c ∈ cs, 2 ≤ c) →
      exec (.invg n strict) s = .next (s.answered rest 0x20 []))

/-- The model's reading of 30_encoding.md R69's last sentence: an item of the other kind is a wrong shape (log 10). -/
def Obligations.ItemOfOtherKindIsInvalidDimension : Prop :=
  ∀ (s : State) (r : Request) (rest : List Request) (n : Dim) (strict : Bool), s.Offers r rest →
    payloadFits s.cfg r.payload = true →
    ((∃ cs, .cells cs ∈ r.payload) →
      exec (.unpack n) s = .next (s.answered rest 0x10 []) ∧
      exec (.invp n strict) s = .next (s.answered rest 0x10 [])) ∧
    ((∃ x, .row x ∈ r.payload) →
      exec (.pack n) s = .next (s.answered rest 0x10 []) ∧
      exec (.invg n strict) s = .next (s.answered rest 0x10 []))

/-- Whatever is answered from IDLE, a rejection or a codec result, leaves no trace: every register, the phase among them,
is as it was (60_exceptions.md R156; 10_state.md R25, R42). -/
def Obligations.AnswerFromIdleChangesNoRegister : Prop :=
  ∀ s t : State, step s = .next t → s.ph = .idle → t.responses ≠ s.responses →
    ∃ r rest sts payload, s.requests = r :: rest ∧ t = s.answered rest sts payload ∧
      (stsOkBit sts = false → payload = [] ∧ sts ∈ [0x10, 0x20, 0x40])

/-! ## Acceptance of an inversion -/

/-- INVP is accepted (42_pipeline.md R130, 10_state.md R42): the command and the rows are latched, the sequencer starts, and
nothing else changes. -/
def Obligations.InvpIsLatched : Prop :=
  ∀ (s : State) (w : CmdWord) (rest : List Request) (n : Dim) (strict : Bool) (rows : List Nat),
    s.Offers { cmd := w, payload := rows.map .row } rest → s.IB.length = s.cfg.nMax → Dim.WellFormed s.cfg n →
    rows.length = n.toNat → (∀ r ∈ rows, r < 2 ^ s.cfg.nMax) →
    ∃ ib, exec (.invp n strict) s =
        .next { s with requests := rest, cmdr := { op := .invp, strict := strict, n := n }, IB := ib, ph := .init } ∧
      (∀ i < n.toNat, ib[i]? = (rows[i]?).map .row) ∧ (∀ i, n.toNat ≤ i → ib[i]? = s.IB[i]?)

/-- INVG is accepted (41_inverter.md R100, 10_state.md R42). -/
def Obligations.InvgIsLatched : Prop :=
  ∀ (s : State) (w : CmdWord) (rest : List Request) (n : Dim) (strict : Bool) (rows : List (List Nat)),
    s.Offers { cmd := w, payload := rows.map .cells } rest → s.cfg.WellFormed → s.IB.length = s.cfg.nMax →
    Dim.WellFormed s.cfg n → rows.length = n.toNat → (∀ cs ∈ rows, cs.length = n.toNat ∧ ∀ c ∈ cs, c < 2) →
    ∃ ib, exec (.invg n strict) s =
        .next { s with requests := rest, cmdr := { op := .invg, strict := strict, n := n }, IB := ib, ph := .init } ∧
      (∀ i < n.toNat, ib[i]? = (rows[i]?).map .cells) ∧ (∀ i, n.toNat ≤ i → ib[i]? = s.IB[i]?)

/-! ## The micro-operations -/

/-- M_INIT (41_inverter.md R101): row `i` of `W` takes the input's bits below `n` and zeros above, row `i` of `C` is row `i` of
the identity, `j` is 0, `INV` is 1; rows from `n` up and everything else are as they were. -/
def Obligations.MInitLoadsBothStores : Prop :=
  ∀ s : State, s.Wf → s.ph = .init →
    ∃ w comp, exec .mInit s = .next { s with W := w, C := comp, j := 0, inv := true, ph := .pivot } ∧
      w.length = s.W.length ∧ comp.length = s.C.length ∧
      (∀ i < s.dim, readRow comp i = 1 <<< i ∧ readRow w i < 2 ^ s.dim ∧
        (∀ r, s.cmdr.op = .invp → s.IB[i]? = some (.row r) → ∀ k < s.dim, readBit w i k = r.testBit k) ∧
        (∀ cs, s.cmdr.op = .invg → s.IB[i]? = some (.cells cs) →
          ∀ k < s.dim, readBit w i k = decide (cs[k]? = some 1))) ∧
      (∀ i, s.dim ≤ i → w[i]? = s.W[i]? ∧ comp[i]? = s.C[i]?)

/-- M_PIVOT (41_inverter.md R102): the first row at or below the diagonal with a 1 in column `j`, or none; `p` and `INV` are
written only where the rule writes them, and no row is. -/
def Obligations.MPivotFindsTheFirstRow : Prop :=
  ∀ s : State, s.ph = .pivot →
    (∀ i, s.j.toNat ≤ i → i < s.dim → readBit s.W i s.j.toNat = true →
      (∀ m, s.j.toNat ≤ m → m < i → readBit s.W m s.j.toNat = false) →
      exec .mPivot s = .next { s with p := BitVec.ofNat 16 i, found := true, ph := .swap }) ∧
    ((∀ i, s.j.toNat ≤ i → i < s.dim → readBit s.W i s.j.toNat = false) →
      exec .mPivot s = .next { s with
        found := false, inv := false, ph := if s.cfg.policy = .skip then .next else .elim })

/-- M_SWAP (41_inverter.md R103): rows `j` and `p` of both stores are exchanged in one step, and nothing else changes; after it
`W[j][j]` is 1. -/
def Obligations.MSwapExchangesRowsInBothStores : Prop :=
  ∀ s : State, s.Wf → s.ph = .swap →
    ∃ w comp, exec .mSwap s = .next { s with W := w, C := comp, ph := .elim } ∧
      w.length = s.W.length ∧ comp.length = s.C.length ∧
      readRow w s.j.toNat = readRow s.W s.p.toNat ∧ readRow w s.p.toNat = readRow s.W s.j.toNat ∧
      readRow comp s.j.toNat = readRow s.C s.p.toNat ∧ readRow comp s.p.toNat = readRow s.C s.j.toNat ∧
      (∀ i, i ≠ s.j.toNat → i ≠ s.p.toNat → w[i]? = s.W[i]? ∧ comp[i]? = s.C[i]?) ∧
      readBit w s.j.toNat s.j.toNat = true

/-- M_ELIM (41_inverter.md R104): exactly the rows of `E` take the XOR with row `j`, in both stores; with a pivot in row `j`
column `j` of `W` becomes that of the identity, and without one it is left as it was. -/
def Obligations.MElimAddsThePivotRow : Prop :=
  ∀ s : State, s.Wf → s.ph = .elim →
    ∃ w comp, exec .mElim s = .next { s with W := w, C := comp, ph := .next } ∧
      w.length = s.W.length ∧ comp.length = s.C.length ∧
      (∀ i < s.cfg.nMax, if i < s.dim ∧ i ≠ s.j.toNat ∧ readBit s.W i s.j.toNat = true then
          readRow w i = readRow s.W i ^^^ readRow s.W s.j.toNat ∧ readRow comp i = readRow s.C i ^^^ readRow s.C s.j.toNat
        else readRow w i = readRow s.W i ∧ readRow comp i = readRow s.C i) ∧
      (readBit s.W s.j.toNat s.j.toNat = true → ∀ i < s.dim, readBit w i s.j.toNat = decide (i = s.j.toNat)) ∧
      (readBit s.W s.j.toNat s.j.toNat = false → ∀ i < s.dim, readBit w i s.j.toNat = readBit s.W i s.j.toNat)

/-- M_NEXT (41_inverter.md R105). -/
def Obligations.MNextAdvancesTheColumn : Prop :=
  ∀ s : State, s.ph = .next →
    exec .mNext s = .next (if s.j.toNat + 1 < s.dim then { s with j := s.j + 1, ph := .pivot } else { s with ph := .fin })

/-- M_FIN (41_inverter.md R106): NotInvertible in the strict variant of a singular matrix, else the rows of `C` in the
operation's format with the flag; then IDLE, and no register but `ph` is written. -/
def Obligations.MFinResponds : Prop :=
  ∀ s : State, s.ph = .fin →
    let answer (sts : StsWord) (payload : List Item) : State :=
      { s with ph := .idle, responses := s.responses ++ [{ sts := sts, payload := payload }] }
    let sts : StsWord := if s.inv = true then 0x3 else 0x1
    (s.cmdr.strict = true → s.inv = false → exec .mFin s = .next (answer 0x30 [])) ∧
    (s.cmdr.strict = false ∨ s.inv = true → s.cmdr.op = .invg →
      exec .mFin s = .next (answer sts ((List.range s.dim).map fun i =>
        .cells ((List.range s.dim).map fun k => (readBit s.C i k).toNat)))) ∧
    (s.cmdr.strict = false ∨ s.inv = true → s.cmdr.op = .invp →
      exec .mFin s = .next (answer sts ((List.range s.dim).map fun i => .row (readRow s.C i))))

/-! ## Reset -/

/-- After reset the block is idle and takes requests (70_reset_and_hazards.md R180, 10_state.md R43), and its state is within
every invariant. The reference parameters are those of 00_scope.md R10 to R12; the other registers' values are the model's
(log 5). -/
def Obligations.ResetIsIdleAndWellFormed : Prop :=
  State.reset.ph = .idle ∧ State.reset.cfg = { nMax := 32, cellW := 1, policy := .skip } ∧
  ∀ c : Config, c.WellFormed →
    (State.resetOf c).ph = .idle ∧ (State.resetOf c).Wf ∧ (State.resetOf c).AugmentedPair ∧ (State.resetOf c).PivotProgress

/-- The reset event abandons a command without a response (70_reset_and_hazards.md R181) and leaves the invariant. That the
host's messages stay is the model's choice (log 15). -/
def Obligations.ResetEventAbandonsTheCommand : Prop :=
  ∀ s : State, s.Wf → s.resetEvent.ph = .idle ∧ s.resetEvent.cfg = s.cfg ∧ s.resetEvent.responses = s.responses ∧
    s.resetEvent.requests = s.requests ∧ s.resetEvent.Wf

/-! ## Invariants of every step -/

/-- The invariant of the block's states, kept by every step from every state that has it: the shape of the stores
(10_state.md R21, R22, R26), what `CMDR` and `IB` hold while busy (R33), the bounds of `j` and `p` (R28, R30;
41_inverter.md R109), and the zero bits at and above `n` (10_state.md R23). -/
def Obligations.StepKeepsStateWellFormed : Prop :=
  ∀ s t : State, s.Wf → step s = .next t → t.Wf

/-- In every state with the invariant the machine goes on: no fault, no refusal (70_reset_and_hazards.md R191). -/
def Obligations.StepNeverStops : Prop :=
  ∀ s : State, s.Wf → ∃ t, step s = .next t

/-- The augmented-pair invariant of 10_state.md R24: `C × original_input = W` whenever the stores are loaded. -/
def Obligations.StepKeepsAugmentedPair : Prop :=
  ∀ s t : State, s.Wf → s.AugmentedPair → step s = .next t → t.AugmentedPair

/-- 41_inverter.md R112: while every column so far had a pivot, the columns done are unit columns. -/
def Obligations.StepKeepsPivotProgress : Prop :=
  ∀ s t : State, s.Wf → s.PivotProgress → step s = .next t → t.PivotProgress

/-- 41_inverter.md R112's end: with `INV` still 1 at M_FIN the working grid is the identity and the companion times the input
is too (R114's first half). -/
def Obligations.WorkingGridIsIdentityAtFin : Prop :=
  ∀ s : State, s.Wf → s.AugmentedPair → s.PivotProgress → s.ph = .fin → s.inv = true →
    storeGrid s.dim s.W = identityGrid s.dim ∧ matMul s.dim (storeGrid s.dim s.C) s.input = identityGrid s.dim

/-- 10_state.md R29, the whole control flow: the next phase and the next `j` of every step. -/
def Obligations.SequencerFollowsTheTable : Prop :=
  ∀ s t : State, s.Wf → step s = .next t →
    (s.ph = .idle → t.j = s.j ∧
      (t.ph = .init ↔ ∃ r rest, s.requests = r :: rest ∧ t.responses = s.responses) ∧
      (t.ph = .init → ∃ r rest n strict, s.requests = r :: rest ∧
        (decodeCommand r.cmd = .ok (.invg n strict) ∨ decodeCommand r.cmd = .ok (.invp n strict))) ∧
      (t.ph = .init ∨ t.ph = .idle)) ∧
    (s.ph = .init → t.ph = .pivot ∧ t.j = 0) ∧
    (s.ph = .pivot → t.j = s.j ∧
      (t.found = true ↔ ∃ i, s.j.toNat ≤ i ∧ i < s.dim ∧ readBit s.W i s.j.toNat = true) ∧
      (t.found = true → t.ph = .swap) ∧
      (t.found = false → s.cfg.policy = .skip → t.ph = .next) ∧
      (t.found = false → s.cfg.policy = .degenerate → t.ph = .elim)) ∧
    (s.ph = .swap → t.ph = .elim ∧ t.j = s.j) ∧
    (s.ph = .elim → t.ph = .next ∧ t.j = s.j) ∧
    (s.ph = .next → (s.j.toNat + 1 < s.dim → t.ph = .pivot ∧ t.j.toNat = s.j.toNat + 1) ∧
      (s.j.toNat + 1 = s.dim → t.ph = .fin ∧ t.j = s.j)) ∧
    (s.ph = .fin → t.ph = .idle ∧ t.j = s.j)

/-- `INV` is sticky-low within a command, and only M_INIT and an M_PIVOT without a pivot write it (10_state.md R32). -/
def Obligations.InvFlagIsStickyLow : Prop :=
  ∀ s t : State, step s = .next t →
    (s.Loaded → t.inv = true → s.inv = true) ∧
    (t.inv ≠ s.inv → s.ph = .init ∨ (s.ph = .pivot ∧ t.found = false ∧ t.inv = false))

/-- The parameters never change, and `CMDR` and `IB` are constant while a command is in progress (10_state.md R20, R26, R33;
20_memory.md R53). -/
def Obligations.CommandIsConstantWhileBusy : Prop :=
  ∀ s t : State, step s = .next t → t.cfg = s.cfg ∧ (s.Busy → t.cmdr = s.cmdr ∧ t.IB = s.IB)

/-- Rows `n` and up of both stores are not written by an inversion of dimension `n`, and acceptance writes no row
(10_state.md R21, R25). -/
def Obligations.RowsAboveTheDimensionAreUntouched : Prop :=
  ∀ s t : State, s.Wf → step s = .next t →
    (s.ph = .idle → t.W = s.W ∧ t.C = s.C) ∧
    (s.Busy → ∀ i, s.dim ≤ i → t.W[i]? = s.W[i]? ∧ t.C[i]? = s.C[i]?)

/-- Exactly one response per request, in order (10_state.md R41; 20_memory.md R56): requests on offer, the command in progress and
responses emitted keep one total; a request is taken only in IDLE, from the front (R184), and responses are only added. -/
def Obligations.OneResponsePerRequest : Prop :=
  ∀ s t : State, step s = .next t →
    t.requests.length + t.responses.length + (if t.ph = .idle then 0 else 1) =
      s.requests.length + s.responses.length + (if s.ph = .idle then 0 else 1) ∧
    (∃ new, t.responses = s.responses ++ new) ∧
    (t.requests = s.requests ∨ (s.ph = .idle ∧ t.requests = s.requests.tail))

/-- The status words that occur are the six of 30_encoding.md R75, and a failed command's payload is empty. -/
def Obligations.OnlySixStatusWordsOccur : Prop :=
  ∀ s t : State, step s = .next t → ∀ r ∈ t.responses.drop s.responses.length,
    r.sts ∈ [0x1, 0x3, 0x10, 0x20, 0x30, 0x40] ∧ (stsOkBit r.sts = false → r.payload = [])

/-- The payload of an inversion's response has the shape of 30_encoding.md R69 and R66: `n` items, packed rows without a bit at or
above `n`, or sequences of `n` cells that are 0 or 1. -/
def Obligations.InversionPayloadHasItsShape : Prop :=
  ∀ s t : State, s.Wf → s.ph = .fin → step s = .next t →
    ∃ r, t.responses = s.responses ++ [r] ∧
      (stsOkBit r.sts = true → r.payload.length = s.dim ∧
        (s.cmdr.op = .invp → ∀ it ∈ r.payload, ∃ x, it = .row x ∧ x < 2 ^ s.dim) ∧
        (s.cmdr.op = .invg → ∀ it ∈ r.payload, ∃ cs, it = .cells cs ∧ cs.length = s.dim ∧ ∀ c ∈ cs, c < 2))

/-- 41_inverter.md R111: the rows of one M_ELIM may be done one after another, in any order. -/
def Obligations.EliminationOrderDoesNotMatter : Prop :=
  ∀ (s : State) (order : List Nat), s.Wf → s.ph = .elim → order.Perm (List.range s.dim) →
    refEliminate s.j.toNat order (storeGrid s.dim s.W, storeGrid s.dim s.C) =
      (storeGrid s.dim s.elimStep.W, storeGrid s.dim s.elimStep.C)

/-! ## Whole commands -/

/-- 41_inverter.md R117: an accepted inversion ends, after exactly `2 + 2n + 2f + d` micro-operations, never more than `4n + 2`. -/
def Obligations.InversionTerminatesInCountedSteps : Prop :=
  ∀ s : State, s.Wf → s.ph = .init →
    (∃ t, CompletesIn s t (microOpCount s.input s.dim s.cfg.policy)) ∧
    microOpCount s.input s.dim s.cfg.policy ≤ 4 * s.dim + 2

/-- 41_inverter.md R108: the micro-operations implement `invert_ref`, on the packed rows, from the state after acceptance; the
response is that of the reference (R100, R106; 42_pipeline.md R130). -/
def Obligations.SequencerRefinesInvertRef : Prop :=
  ∀ s : State, s.Wf → s.ph = .init →
    ∃ t k, CompletesIn s t k ∧
      storeGrid s.dim t.C = (invertRef s.input s.dim s.cfg.policy).1 ∧
      t.inv = (invertRef s.input s.dim s.cfg.policy).2 ∧
      t.requests = s.requests ∧
      t.responses = s.responses ++ [refResponse s.cmdr.op s.cmdr.strict s.input s.dim s.cfg.policy]

/-- INVP from offer to response (42_pipeline.md R130): with `G = unpack_grid(rows, n)` and `(K, v) = invert_ref(G, n)` the payload
is `pack_grid(K)` and `inv` is `v`, or NotInvertible in the strict variant. -/
def Obligations.InvpCommandAnswersInvertRef : Prop :=
  ∀ (s : State) (r : Request) (rest : List Request) (n : Dim) (strict : Bool) (rows : List Nat),
    s.Wf → s.Offers r rest → decodeCommand r.cmd = .ok (.invp n strict) → Dim.WellFormed s.cfg n →
    r.payload = rows.map .row → rows.length = n.toNat →
    ∃ t k, runFor k s = some t ∧ t.ph = .idle ∧ t.requests = rest ∧
      t.responses = s.responses ++
        [refResponse .invp strict (unpackGrid n.toNat rows) n.toNat s.cfg.policy]

/-- INVG from offer to response (41_inverter.md R100). -/
def Obligations.InvgCommandAnswersInvertRef : Prop :=
  ∀ (s : State) (r : Request) (rest : List Request) (n : Dim) (strict : Bool) (g : Grid),
    s.Wf → s.Offers r rest → decodeCommand r.cmd = .ok (.invg n strict) → Dim.WellFormed s.cfg n →
    IsGrid n.toNat g → r.payload = gridItems g →
    ∃ t k, runFor k s = some t ∧ t.ph = .idle ∧ t.requests = rest ∧
      t.responses = s.responses ++ [refResponse .invg strict g n.toNat s.cfg.policy]

/-- 42_pipeline.md R131: INVP gives the status and, item for item, the packed payload of INVG on the unpacked rows. -/
def Obligations.PackedFlowIsTheComposition : Prop :=
  ∀ (s : State) (rest : List Request) (n : Dim) (strict : Bool) (rows : List Nat),
    s.Wf → s.ph = .idle → s.requests = rest → Dim.WellFormed s.cfg n → rows.length = n.toNat →
    (∀ r ∈ rows, r < 2 ^ s.cfg.nMax) →
    ∃ (k : Nat) (t u : State) (sts : StsWord) (out : List (List Nat)),
      runFor k { s with requests := { cmd := commandWord 4 strict n, payload := rows.map .row } :: rest } = some t ∧
      runFor k { s with
        requests := { cmd := commandWord 3 strict n, payload := rows.map (unpackItem n.toNat) } :: rest } = some u ∧
      t.ph = .idle ∧ u.ph = .idle ∧ t.requests = rest ∧ u.requests = rest ∧
      u.responses = s.responses ++ [{ sts := sts, payload := out.map .cells }] ∧
      t.responses = s.responses ++ [{ sts := sts, payload := out.map fun cs => .row (packSeq cs) }]

/-- Nothing survives a command (10_state.md R34; 42_pipeline.md R140): two idle blocks with the same parameters that take the same
request give the same response, whatever their registers hold. -/
def Obligations.ResponseIgnoresLeftoverState : Prop :=
  ∀ (s s' : State) (r : Request) (rest rest' : List Request),
    s.Wf → s'.Wf → s.cfg = s'.cfg → s.Offers r rest → s'.Offers r rest' →
    ∃ k t t' response, runFor k s = some t ∧ runFor k s' = some t' ∧ t.ph = .idle ∧ t'.ph = .idle ∧
      t.requests = rest ∧ t'.requests = rest' ∧
      t.responses = s.responses ++ [response] ∧ t'.responses = s'.responses ++ [response]

/-- 41_inverter.md R113: the policy never changes `INV`, nor anything of a response with `INV` = 1. -/
def Obligations.PolicyChangesOnlyTheUntrustedPayload : Prop :=
  ∀ (s : State) (policy : SingPolicy), s.Wf → s.ph = .init →
    ∃ t k t' k', CompletesIn s t k ∧ CompletesIn { s with cfg := { s.cfg with policy := policy } } t' k' ∧
      t.inv = t'.inv ∧ (t.inv = true → t.responses = t'.responses)

/-- 42_pipeline.md R136: with `inv` = 1 the result times the input and the input times the result are the identity. -/
def Obligations.ResultIsTheTwoSidedInverse : Prop :=
  ∀ s : State, s.Wf → s.ph = .init →
    ∃ t k, CompletesIn s t k ∧ (t.inv = true →
      matMul s.dim s.input (storeGrid s.dim t.C) = identityGrid s.dim ∧
      matMul s.dim (storeGrid s.dim t.C) s.input = identityGrid s.dim)

/-- 42_pipeline.md R137: a zero row gives `inv` = 0, `inv` is 0 for every singular input and only for those, and in the strict variant
they give NotInvertible. -/
def Obligations.SingularInputsAreDetected : Prop :=
  ∀ s : State, s.Wf → s.ph = .init →
    ∃ t k, CompletesIn s t k ∧
      ((∃ i < s.dim, ∀ m < s.dim, entry s.input i m = false) → t.inv = false) ∧
      (t.inv = false ↔ ¬ ∃ b : Grid, matMul s.dim b s.input = identityGrid s.dim) ∧
      (s.cmdr.strict = true → t.inv = false → t.responses = s.responses ++ [{ sts := 0x30, payload := [] }])

/-- The identity inverts to itself, at every dimension (42_pipeline.md R134). -/
def Obligations.IdentityInvertsToItself : Prop :=
  ∀ s : State, s.Wf → s.ph = .init → s.input = identityGrid s.dim →
    ∃ t k, CompletesIn s t k ∧ t.inv = true ∧ storeGrid s.dim t.C = identityGrid s.dim

/-- 42_pipeline.md R135: inverting the inverse gives the input back, with `inv` = 1 both times. -/
def Obligations.InverseOfTheInverse : Prop :=
  ∀ s : State, s.Wf → s.ph = .init →
    ∃ t k, CompletesIn s t k ∧ (t.inv = true →
      ∀ s' : State, s'.Wf → s'.ph = .init → s'.dim = s.dim → s'.input = storeGrid s.dim t.C →
        ∃ t' k', CompletesIn s' t' k' ∧ t'.inv = true ∧ storeGrid s.dim t'.C = s.input)

/-- 42_pipeline.md R138: the vector round trip, in both orders, for elements of any width. -/
def Obligations.VectorRoundTrip : Prop :=
  ∀ (s : State) (v : List Nat), s.Wf → s.ph = .init → v.length = s.dim →
    ∃ t k, CompletesIn s t k ∧ (t.inv = true →
      apply s.dim (storeGrid s.dim t.C) (apply s.dim s.input v) = v ∧
      apply s.dim s.input (apply s.dim (storeGrid s.dim t.C) v) = v)

/-- 42_pipeline.md R141: `apply` from the packed rows is `apply` from the unpacked grid. -/
def Obligations.PackedApplyIsUnpackedApply : Prop :=
  ∀ (n : Nat) (rows v : List Nat), rows.length = n → applyPacked n rows v = apply n (unpackGrid n rows) v

/-- Bits of a packed row at or above `n` are ignored: the response is that of the masked rows (30_encoding.md R66;
42_pipeline.md R130; 90_conflicts.md C1). -/
def Obligations.HighBitsOfInputRowsAreIgnored : Prop :=
  ∀ (s : State) (rest : List Request) (n : Dim) (strict : Bool) (rows : List Nat),
    s.Wf → s.ph = .idle → s.requests = rest → Dim.WellFormed s.cfg n → rows.length = n.toNat →
    (∀ r ∈ rows, r < 2 ^ s.cfg.nMax) →
    ∃ k t u response,
      runFor k { s with requests := { cmd := commandWord 4 strict n, payload := rows.map .row } :: rest } = some t ∧
      runFor k { s with
        requests := { cmd := commandWord 4 strict n, payload := rows.map (maskedItem n.toNat) } :: rest } = some u ∧
      t.ph = .idle ∧ u.ph = .idle ∧ t.requests = rest ∧ u.requests = rest ∧
      t.responses = s.responses ++ [response] ∧ u.responses = s.responses ++ [response]
end

