-- ==== Sys2Proof/Laws/Decode.lean ====
section
/-! SUPPORT. The bits and the fields of a command word. -/

namespace Sys2Proof

variable (op : OpField) (strict : Bool) (n : Dim)

/-- Every bit of a command word: `op`, `strict`, `rsv0`, `n`, `rsv1` from the low end (30_encoding.md R70). -/
theorem commandWord_getLsbD (k : Nat) :
    (commandWord op strict n).getLsbD k =
      if k < 4 then op.getLsbD k
      else if k = 4 then strict
      else decide (8 ≤ k) && n.getLsbD (k - 8) := by
  have h : (commandWord op strict n).getLsbD k =
      BitVec.getLsbD (w := 8 + 16 + 3 + 1 + 4) (0#8 ++ n ++ 0#3 ++ BitVec.ofBool strict ++ op) k := rfl
  rw [h]
  simp only [BitVec.getLsbD_append, BitVec.getLsbD_zero, BitVec.getLsbD_ofBool]
  by_cases h4 : k < 4
  · simp [h4]
  · by_cases h5 : k = 4
    · simp [h5]
    · have h1 : ¬ k - 4 < 1 := by omega
      have h2 : k - 4 - 1 - 3 = k - 8 := by omega
      have h3 : (k - 4 - 1 < 3) ↔ ¬ 8 ≤ k := by omega
      by_cases h8 : 8 ≤ k
      · by_cases hn : k - 8 < 16
        · simp [h4, h5, h1, h2, h3, h8, hn]
        · simp [h4, h5, h1, h2, h3, h8, hn, BitVec.getLsbD_of_ge n (k - 8) (by omega)]
      · simp [h4, h5, h1, h3, h8]

theorem cmdOp_commandWord : cmdOp (commandWord op strict n) = op := by
  apply BitVec.eq_of_getLsbD_eq
  intro i hi
  simp [cmdOp, commandWord_getLsbD, hi]

theorem cmdStrict_commandWord : cmdStrict (commandWord op strict n) = strict := by
  unfold cmdStrict
  rw [commandWord_getLsbD]
  simp

theorem cmdRsv0_commandWord : cmdRsv0 (commandWord op strict n) = 0 := by
  apply BitVec.eq_of_getLsbD_eq
  intro i hi
  have h : ¬ (5 + i < 4) := by omega
  have h' : ¬ (5 + i = 4) := by omega
  have h8 : ¬ (8 ≤ 5 + i) := by omega
  simp [cmdRsv0, commandWord_getLsbD, h, h', h8]

theorem cmdDim_commandWord : cmdDim (commandWord op strict n) = n := by
  apply BitVec.eq_of_getLsbD_eq
  intro i hi
  have h : ¬ (8 + i < 4) := by omega
  have h' : ¬ (8 + i = 4) := by omega
  simp [cmdDim, commandWord_getLsbD, hi, h, h']

theorem cmdRsv1_commandWord : cmdRsv1 (commandWord op strict n) = 0 := by
  apply BitVec.eq_of_getLsbD_eq
  intro i hi
  have h : ¬ (24 + i < 4) := by omega
  have h' : ¬ (24 + i = 4) := by omega
  simp [cmdRsv1, commandWord_getLsbD, h, h',
    BitVec.getLsbD_of_ge n (24 + i - 8) (by omega)]

end Sys2Proof
end

