-- ==== Sys2Proof/Laws/Operands.lean ====
section
/-! SUPPORT. What the codec's two functions give: lengths, cells, bits and bounds. -/

namespace Sys2Proof.Machine

@[simp] theorem unpackSeq_length (r : Nat) (n : Nat) : (unpackSeq r n).length = n := by
  simp [unpackSeq]

theorem unpackSeq_getElem? (r : Nat) (n k : Nat) (hk : k < n) :
    (unpackSeq r n)[k]? = some (r.testBit k).toNat := by
  simp [unpackSeq, hk]

/-- Every cell that the codec makes is 0 or 1. -/
theorem unpackSeq_lt_two (r : Nat) (n : Nat) : ∀ c ∈ unpackSeq r n, c < 2 := by
  intro c hc
  obtain ⟨k, -, rfl⟩ := List.mem_map.1 hc
  exact Bool.toNat_lt _

@[simp] theorem packSeq_nil : packSeq [] = 0 := rfl

@[simp] theorem packSeq_cons (b : Nat) (bs : List Nat) : packSeq (b :: bs) = b + 2 * packSeq bs := rfl

/-- A packed row of `n` legal cells is below `2^n` (30_encoding.md R78). -/
theorem packSeq_lt (bs : List Nat) (h : ∀ b ∈ bs, b < 2) : packSeq bs < 2 ^ bs.length := by
  induction bs with
  | nil => simp
  | cons b bs ih =>
    have hb := h b (by simp)
    have ht := ih fun c hc => h c (by simp [hc])
    simp only [packSeq_cons, List.length_cons, pow_succ]
    omega

/-- Bit `k` of a packed row is cell `k` (20_memory.md R47). -/
theorem packSeq_testBit (bs : List Nat) (h : ∀ b ∈ bs, b < 2) (k : Nat) :
    (packSeq bs).testBit k = decide ((bs[k]?).getD 0 = 1) := by
  induction bs generalizing k with
  | nil => simp
  | cons b bs ih =>
    have hb := h b (by simp)
    have ht := ih (fun c hc => h c (by simp [hc]))
    cases k with
    | zero =>
      simp only [packSeq_cons, List.getElem?_cons_zero, Option.getD_some, Nat.testBit_zero]
      congr 1
      apply propext
      constructor <;> omega
    | succ k =>
      have hd : (b + 2 * packSeq bs) / 2 = packSeq bs := by omega
      simp only [packSeq_cons, List.getElem?_cons_succ, Nat.testBit_succ, hd, ht k]

/-- The row M_INIT loads for INVG is below `2^n`. -/
theorem loadItem_cells_lt (n i : Nat) (cs : List Nat) :
    loadItem .invg n i (some (.cells cs)) < 2 ^ n := by
  refine lt_of_lt_of_le (packSeq_lt _ ?_) (Nat.pow_le_pow_right (by omega) (by simp))
  intro b hb
  obtain ⟨c, -, rfl⟩ := List.mem_map.1 hb
  omega

/-- The row M_INIT loads for INVP is below `2^n`. -/
theorem loadItem_row_lt (n i : Nat) (r : Nat) : loadItem .invp n i (some (.row r)) < 2 ^ n :=
  Nat.mod_lt _ (by positivity)

/-- The bits of the row M_INIT loads for INVP: those of the packed row below `n`. -/
theorem loadItem_row_testBit (n i : Nat) (r : Nat) (k : Nat) :
    (loadItem .invp n i (some (.row r))).testBit k = (decide (k < n) && r.testBit k) := by
  simp [loadItem, Nat.testBit_mod_two_pow]

/-- The bits of the row M_INIT loads for INVG: the low bits of the cells below `n`. -/
theorem loadItem_cells_testBit (n i : Nat) (cs : List Nat) (k : Nat) :
    (loadItem .invg n i (some (.cells cs))).testBit k =
      (decide (k < n) && ((cs[k]?).getD 0).testBit 0) := by
  have h : ∀ b ∈ (cs.take n).map (· % 2), b < 2 := by
    intro b hb
    obtain ⟨c, -, rfl⟩ := List.mem_map.1 hb
    omega
  simp only [loadItem, packSeq_testBit _ h]
  by_cases hk : k < n
  · cases hc : cs[k]? with
    | none => simp [hk, hc]
    | some c => simp [hk, hc, Nat.testBit_zero]
  · simp [hk]

/-- A dimension passes the checks exactly where the instance supports it (60_exceptions.md R152, 1 and 2). -/
theorem dimensionLegal_iff (c : Config) (n : Dim) : dimensionLegal c n = true ↔ Dim.WellFormed c n := by
  simp [dimensionLegal]

/-! ## What the checks decide -/

/-- UNPACK: one packed row at a legal dimension, or InvalidDimension (40_codec.md R90). -/
theorem unpackVerdict_cases (c : Config) (n : Dim) (p : List Item) :
    (∃ r, Dim.WellFormed c n ∧ p = [.row r] ∧ unpackVerdict c n p = .done [.cells (unpackSeq r n.toNat)]) ∨
    ((¬ Dim.WellFormed c n ∨ ∀ r, p ≠ [.row r]) ∧ unpackVerdict c n p = .raise .invalidDimension) := by
  unfold unpackVerdict
  by_cases hd : dimensionLegal c n = true
  · rw [if_pos hd]
    split
    · exact .inl ⟨_, (dimensionLegal_iff c n).1 hd, rfl, rfl⟩
    · exact .inr ⟨.inr ‹_›, rfl⟩
  · rw [if_neg hd]
    exact .inr ⟨.inl fun h => hd ((dimensionLegal_iff c n).2 h), rfl⟩

/-- PACK: one sequence of `n` legal cells at a legal dimension, or the first error of R155 (40_codec.md R91). -/
theorem packVerdict_cases (c : Config) (n : Dim) (p : List Item) :
    (∃ cs, Dim.WellFormed c n ∧ p = [.cells cs] ∧ cs.length = n.toNat ∧ (∀ x ∈ cs, x < 2) ∧
      packVerdict c n p = .done [.row (packSeq cs)]) ∨
    (∃ cs, Dim.WellFormed c n ∧ p = [.cells cs] ∧ cs.length = n.toNat ∧ (∃ x ∈ cs, 2 ≤ x) ∧
      packVerdict c n p = .raise .invalidBitValue) ∨
    ((¬ Dim.WellFormed c n ∨ ∀ cs, p = [.cells cs] → cs.length ≠ n.toNat) ∧
      packVerdict c n p = .raise .invalidDimension) := by
  unfold packVerdict
  by_cases hd : dimensionLegal c n = true
  · have hw := (dimensionLegal_iff c n).1 hd
    rw [if_pos hd]
    split
    · rename_i cs
      by_cases hl : cs.length = n.toNat
      · rw [if_pos hl]
        by_cases hb : hasBadCell (.cells cs) = true
        · rw [if_pos hb]
          exact .inr (.inl ⟨cs, hw, rfl, hl, by simpa [hasBadCell] using hb, rfl⟩)
        · rw [if_neg hb]
          exact .inl ⟨cs, hw, rfl, hl, by simpa [hasBadCell] using hb, rfl⟩
      · rw [if_neg hl]
        refine .inr (.inr ⟨.inr ?_, rfl⟩)
        rintro cs' h
        simp only [List.cons.injEq, Item.cells.injEq, and_true] at h
        exact h ▸ hl
    · rename_i hp
      exact .inr (.inr ⟨.inr fun cs h => absurd h (hp cs), rfl⟩)
  · rw [if_neg hd]
    exact .inr (.inr ⟨.inl fun h => hd ((dimensionLegal_iff c n).2 h), rfl⟩)

/-- INVG: started, or the first error of R155 (41_inverter.md R100). -/
theorem invgVerdict_cases (c : Config) (n : Dim) (strict : Bool) (p : List Item) :
    (Dim.WellFormed c n ∧ (p.length = n.toNat ∧ p.all (isSeqOf n.toNat) = true) ∧ p.any hasBadCell = false ∧
      invgVerdict c n strict p = .start .invg strict) ∨
    (Dim.WellFormed c n ∧ (p.length = n.toNat ∧ p.all (isSeqOf n.toNat) = true) ∧ p.any hasBadCell = true ∧
      invgVerdict c n strict p = .raise .invalidBitValue) ∨
    ((¬ Dim.WellFormed c n ∨ ¬ (p.length = n.toNat ∧ p.all (isSeqOf n.toNat) = true)) ∧
      invgVerdict c n strict p = .raise .invalidDimension) := by
  unfold invgVerdict
  rw [← dimensionLegal_iff]
  by_cases hd : dimensionLegal c n = true
  · by_cases hs : p.length = n.toNat ∧ p.all (isSeqOf n.toNat) = true
    · by_cases hb : p.any hasBadCell = true
      · exact .inr (.inl ⟨hd, hs, hb, by rw [if_pos hd, if_pos hs, if_pos hb]⟩)
      · exact .inl ⟨hd, hs, by simpa using hb, by rw [if_pos hd, if_pos hs, if_neg hb]⟩
    · exact .inr (.inr ⟨.inr hs, by rw [if_pos hd, if_neg hs]⟩)
  · exact .inr (.inr ⟨.inl hd, by rw [if_neg hd]⟩)

/-- INVP: started, or InvalidDimension (42_pipeline.md R130). -/
theorem invpVerdict_cases (c : Config) (n : Dim) (strict : Bool) (p : List Item) :
    (Dim.WellFormed c n ∧ (p.length = n.toNat ∧ p.all isRow = true) ∧
      invpVerdict c n strict p = .start .invp strict) ∨
    ((¬ Dim.WellFormed c n ∨ ¬ (p.length = n.toNat ∧ p.all isRow = true)) ∧
      invpVerdict c n strict p = .raise .invalidDimension) := by
  unfold invpVerdict
  rw [← dimensionLegal_iff]
  by_cases hd : dimensionLegal c n = true
  · by_cases hs : p.length = n.toNat ∧ p.all isRow = true
    · exact .inl ⟨hd, hs, by rw [if_pos hd, if_pos hs]⟩
    · exact .inr ⟨.inr hs, by rw [if_pos hd, if_neg hs]⟩
  · exact .inr ⟨.inl hd, by rw [if_neg hd]⟩

end Sys2Proof.Machine
end

