-- ==== Sys2Proof/Laws/Memory.lean ====
section
/-! SUPPORT. The row stores: what each operation makes of each row, and that each keeps the one form of a store. -/

namespace Sys2Proof.Machine

/-! ## Reading -/

theorem readRow_of_getElem? {rows : List Nat} {i : Nat} {r : Nat} (h : rows[i]? = some r) :
    readRow rows i = r := by
  simp [readRow, h]

theorem readRow_eq_getElem {rows : List Nat} {i : Nat} (h : i < rows.length) : readRow rows i = rows[i] := by
  simp [readRow, h]

theorem getElem?_eq_readRow {rows : List Nat} {i : Nat} (h : i < rows.length) :
    rows[i]? = some (readRow rows i) := by
  simp [readRow, h]

/-! ## What each operation does to each row -/

@[simp] theorem loadRows_length (op : InvOp) (n : Nat) (ib : List Item) (rows : List Nat) :
    (loadRows op n ib rows).length = rows.length := by
  simp [loadRows]

@[simp] theorem identityRows_length (n : Nat) (rows : List Nat) : (identityRows n rows).length = rows.length := by
  simp [identityRows]

@[simp] theorem swapRows_length (j p : Nat) (rows : List Nat) : (swapRows j p rows).length = rows.length := by
  simp [swapRows]

@[simp] theorem elimRows_length (w : List Nat) (n j : Nat) (rows : List Nat) :
    (elimRows w n j rows).length = rows.length := by
  simp [elimRows]

@[simp] theorem latchItems_length (n : Nat) (payload ib : List Item) : (latchItems n payload ib).length = ib.length := by
  simp [latchItems]

theorem readRow_loadRows {rows : List Nat} {i : Nat} (op : InvOp) (n : Nat) (ib : List Item) (h : i < rows.length) :
    readRow (loadRows op n ib rows) i = if i < n then loadItem op n i ib[i]? else readRow rows i := by
  simp [readRow, loadRows, h]

theorem readRow_identityRows {rows : List Nat} {i : Nat} (n : Nat) (h : i < rows.length) :
    readRow (identityRows n rows) i = if i < n then 1 <<< i else readRow rows i := by
  simp [readRow, identityRows, h]

/-- A row exchange: row `j` takes row `p`'s value and row `p` row `j`'s, and no other row changes
(41_inverter.md R103). -/
theorem readRow_swapRows {rows : List Nat} {j p : Nat} (hj : j < rows.length) (hp : p < rows.length) (i : Nat) :
    readRow (swapRows j p rows) i =
      if i = p then readRow rows j else if i = j then readRow rows p else readRow rows i := by
  unfold swapRows readRow
  by_cases h : i = p
  · subst h
    simp [hp]
  · by_cases h' : i = j
    · subst h'
      simp [h, hj, Ne.symm h]
    · simp [h, h', Ne.symm h, Ne.symm h']

theorem readRow_elimRows {rows : List Nat} {i : Nat} (w : List Nat) (n j : Nat) (h : i < rows.length) :
    readRow (elimRows w n j rows) i =
      if inElimSet w n j i then readRow rows i ^^^ readRow rows j else readRow rows i := by
  simp [readRow, elimRows, h]

/-- The items that acceptance latches: those of the payload, up to `n` (10_state.md R42). -/
theorem latchItems_getElem? (n : Nat) (payload ib : List Item) (i : Nat) :
    (latchItems n payload ib)[i]? =
      (ib[i]?).map fun old => if i < n then (payload[i]?).getD old else old := by
  simp [latchItems]

/-! ## The pivot search -/

/-- The search finds row `i` exactly where `i` is the first candidate (41_inverter.md R102). -/
theorem findPivot_eq_some_iff (rows : List Nat) (n j i : Nat) :
    findPivot rows n j = some i ↔
      (j ≤ i ∧ i < n ∧ readBit rows i j = true) ∧ ∀ m, j ≤ m → m < i → readBit rows m j = false := by
  unfold findPivot
  rw [List.find?_range_eq_some]
  simp only [Bool.and_eq_true, decide_eq_true_eq, List.mem_range, Bool.not_eq_true', Bool.and_eq_false_iff,
    decide_eq_false_iff_not]
  constructor
  · rintro ⟨⟨hj, hb⟩, hn, hm⟩
    exact ⟨⟨hj, hn, hb⟩, fun m h1 h2 => (hm m h2).resolve_left (by omega)⟩
  · rintro ⟨⟨hj, hn, hb⟩, hm⟩
    refine ⟨⟨hj, hb⟩, hn, fun m h2 => ?_⟩
    by_cases h1 : j ≤ m
    · exact .inr (hm m h1 h2)
    · exact .inl h1

/-- The search finds nothing exactly where there is no candidate. -/
theorem findPivot_eq_none_iff (rows : List Nat) (n j : Nat) :
    findPivot rows n j = none ↔ ∀ i, j ≤ i → i < n → readBit rows i j = false := by
  unfold findPivot
  rw [List.find?_eq_none]
  simp only [List.mem_range, Bool.and_eq_true, decide_eq_true_eq, not_and, Bool.not_eq_true]
  exact ⟨fun h i h1 h2 => h i h2 h1, fun h i h2 h1 => h i h1 h2⟩

/-! ## The one form of a store is kept -/

theorem Memory.wf_iff (c : Config) (rows : List Nat) :
    Memory.wf c rows = true ↔ rows.length = c.nMax ∧ ∀ r ∈ rows, r < 2 ^ c.nMax := by
  simp [Memory.wf]

/-- A store in its one form, row by row. -/
theorem Memory.wf_iff_readRow (c : Config) (rows : List Nat) :
    Memory.wf c rows = true ↔ rows.length = c.nMax ∧ ∀ i < rows.length, readRow rows i < 2 ^ c.nMax := by
  rw [Memory.wf_iff]
  refine and_congr_right fun _ => ⟨fun h i hi => ?_, fun h r hr => ?_⟩
  · rw [readRow_eq_getElem hi]
    exact h _ (List.getElem_mem hi)
  · obtain ⟨i, hi, rfl⟩ := List.getElem_of_mem hr
    have := h i hi
    rwa [readRow_eq_getElem hi] at this

theorem Memory.wf_reset (c : Config) : Memory.wf c (List.replicate c.nMax 0) = true := by
  rw [Memory.wf_iff]
  refine ⟨by simp, fun r hr => ?_⟩
  rw [List.eq_of_mem_replicate hr]
  positivity

theorem Memory.wf_loadRows {c : Config} {rows : List Nat} (op : InvOp) (n : Nat) (ib : List Item)
    (h : Memory.wf c rows = true) (hl : ∀ i < n, loadItem op n i ib[i]? < 2 ^ c.nMax) :
    Memory.wf c (loadRows op n ib rows) = true := by
  rw [Memory.wf_iff_readRow] at h ⊢
  refine ⟨by simpa using h.1, fun i hi => ?_⟩
  have hi' : i < rows.length := by simpa using hi
  rw [readRow_loadRows op n ib hi']
  split
  · exact hl i ‹_›
  · exact h.2 i hi'

theorem Memory.wf_identityRows {c : Config} {rows : List Nat} (n : Nat) (h : Memory.wf c rows = true) :
    Memory.wf c (identityRows n rows) = true := by
  rw [Memory.wf_iff_readRow] at h ⊢
  refine ⟨by simpa using h.1, fun i hi => ?_⟩
  have hi' : i < rows.length := by simpa using hi
  rw [readRow_identityRows n hi']
  split
  · rw [Nat.one_shiftLeft]
    exact Nat.pow_lt_pow_right (by omega) (by omega)
  · exact h.2 i hi'

theorem Memory.wf_swapRows {c : Config} {rows : List Nat} {j p : Nat} (h : Memory.wf c rows = true)
    (hj : j < rows.length) (hp : p < rows.length) : Memory.wf c (swapRows j p rows) = true := by
  rw [Memory.wf_iff_readRow] at h ⊢
  refine ⟨by simpa using h.1, fun i hi => ?_⟩
  rw [readRow_swapRows hj hp]
  split
  · exact h.2 j hj
  · split
    · exact h.2 p hp
    · exact h.2 i (by simpa using hi)

theorem Memory.wf_elimRows {c : Config} {rows : List Nat} {j : Nat} (w : List Nat) (n : Nat)
    (h : Memory.wf c rows = true) (hj : j < rows.length) : Memory.wf c (elimRows w n j rows) = true := by
  rw [Memory.wf_iff_readRow] at h ⊢
  refine ⟨by simpa using h.1, fun i hi => ?_⟩
  have hi' : i < rows.length := by simpa using hi
  rw [readRow_elimRows w n j hi']
  split
  · exact Nat.xor_lt_two_pow (h.2 i hi') (h.2 j hj)
  · exact h.2 i hi'

/-- The request buffer's items keep their types' widths when fitting items are latched. -/
theorem payloadFits_latchItems {c : Config} {payload ib : List Item} (n : Nat) (hp : payloadFits c payload = true)
    (hb : payloadFits c ib = true) : payloadFits c (latchItems n payload ib) = true := by
  simp only [payloadFits, List.all_eq_true] at *
  intro it hit
  obtain ⟨i, hi⟩ := List.mem_iff_getElem?.1 hit
  rw [latchItems_getElem?] at hi
  obtain ⟨old, ho, rfl⟩ := Option.map_eq_some_iff.1 hi
  split
  · cases hq : payload[i]? with
    | none => simpa [hq] using hb old (List.mem_of_getElem? ho)
    | some q => simpa [hq] using hp q (List.mem_of_getElem? hq)
  · exact hb old (List.mem_of_getElem? ho)

end Sys2Proof.Machine
end

