-- ==== Sys2Proof/Laws/State.lean ====
section
/-! SUPPORT. One lemma per field per named state change: what the change makes of the field. -/

namespace Sys2Proof.Machine

variable (s : State)

/-! ## `State.respond` -/

@[simp] theorem State.respond_cfg (sts : StsWord) (payload : List Item) :
    (s.respond sts payload).cfg = s.cfg := rfl

@[simp] theorem State.respond_requests (sts : StsWord) (payload : List Item) :
    (s.respond sts payload).requests = s.requests := rfl

@[simp] theorem State.respond_responses (sts : StsWord) (payload : List Item) :
    (s.respond sts payload).responses = s.responses ++ [{ sts := sts, payload := payload }] := rfl

@[simp] theorem State.respond_W (sts : StsWord) (payload : List Item) :
    (s.respond sts payload).W = s.W := rfl

@[simp] theorem State.respond_C (sts : StsWord) (payload : List Item) :
    (s.respond sts payload).C = s.C := rfl

@[simp] theorem State.respond_IB (sts : StsWord) (payload : List Item) :
    (s.respond sts payload).IB = s.IB := rfl

@[simp] theorem State.respond_cmdr (sts : StsWord) (payload : List Item) :
    (s.respond sts payload).cmdr = s.cmdr := rfl

@[simp] theorem State.respond_ph (sts : StsWord) (payload : List Item) :
    (s.respond sts payload).ph = s.ph := rfl

@[simp] theorem State.respond_j (sts : StsWord) (payload : List Item) :
    (s.respond sts payload).j = s.j := rfl

@[simp] theorem State.respond_p (sts : StsWord) (payload : List Item) :
    (s.respond sts payload).p = s.p := rfl

@[simp] theorem State.respond_found (sts : StsWord) (payload : List Item) :
    (s.respond sts payload).found = s.found := rfl

@[simp] theorem State.respond_inv (sts : StsWord) (payload : List Item) :
    (s.respond sts payload).inv = s.inv := rfl

/-! ## `State.takeRequest` -/

@[simp] theorem State.takeRequest_cfg :
    (s.takeRequest).cfg = s.cfg := rfl

@[simp] theorem State.takeRequest_requests :
    (s.takeRequest).requests = s.requests.tail := rfl

@[simp] theorem State.takeRequest_responses :
    (s.takeRequest).responses = s.responses := rfl

@[simp] theorem State.takeRequest_W :
    (s.takeRequest).W = s.W := rfl

@[simp] theorem State.takeRequest_C :
    (s.takeRequest).C = s.C := rfl

@[simp] theorem State.takeRequest_IB :
    (s.takeRequest).IB = s.IB := rfl

@[simp] theorem State.takeRequest_cmdr :
    (s.takeRequest).cmdr = s.cmdr := rfl

@[simp] theorem State.takeRequest_ph :
    (s.takeRequest).ph = s.ph := rfl

@[simp] theorem State.takeRequest_j :
    (s.takeRequest).j = s.j := rfl

@[simp] theorem State.takeRequest_p :
    (s.takeRequest).p = s.p := rfl

@[simp] theorem State.takeRequest_found :
    (s.takeRequest).found = s.found := rfl

@[simp] theorem State.takeRequest_inv :
    (s.takeRequest).inv = s.inv := rfl

/-! ## `State.toPhase` -/

@[simp] theorem State.toPhase_cfg (q : Phase) :
    (s.toPhase q).cfg = s.cfg := rfl

@[simp] theorem State.toPhase_requests (q : Phase) :
    (s.toPhase q).requests = s.requests := rfl

@[simp] theorem State.toPhase_responses (q : Phase) :
    (s.toPhase q).responses = s.responses := rfl

@[simp] theorem State.toPhase_W (q : Phase) :
    (s.toPhase q).W = s.W := rfl

@[simp] theorem State.toPhase_C (q : Phase) :
    (s.toPhase q).C = s.C := rfl

@[simp] theorem State.toPhase_IB (q : Phase) :
    (s.toPhase q).IB = s.IB := rfl

@[simp] theorem State.toPhase_cmdr (q : Phase) :
    (s.toPhase q).cmdr = s.cmdr := rfl

@[simp] theorem State.toPhase_ph (q : Phase) :
    (s.toPhase q).ph = q := rfl

@[simp] theorem State.toPhase_j (q : Phase) :
    (s.toPhase q).j = s.j := rfl

@[simp] theorem State.toPhase_p (q : Phase) :
    (s.toPhase q).p = s.p := rfl

@[simp] theorem State.toPhase_found (q : Phase) :
    (s.toPhase q).found = s.found := rfl

@[simp] theorem State.toPhase_inv (q : Phase) :
    (s.toPhase q).inv = s.inv := rfl

/-! ## `State.latch` -/

@[simp] theorem State.latch_cfg (op : InvOp) (strict : Bool) (n : Dim) (payload : List Item) :
    (s.latch op strict n payload).cfg = s.cfg := rfl

@[simp] theorem State.latch_requests (op : InvOp) (strict : Bool) (n : Dim) (payload : List Item) :
    (s.latch op strict n payload).requests = s.requests := rfl

@[simp] theorem State.latch_responses (op : InvOp) (strict : Bool) (n : Dim) (payload : List Item) :
    (s.latch op strict n payload).responses = s.responses := rfl

@[simp] theorem State.latch_W (op : InvOp) (strict : Bool) (n : Dim) (payload : List Item) :
    (s.latch op strict n payload).W = s.W := rfl

@[simp] theorem State.latch_C (op : InvOp) (strict : Bool) (n : Dim) (payload : List Item) :
    (s.latch op strict n payload).C = s.C := rfl

@[simp] theorem State.latch_IB (op : InvOp) (strict : Bool) (n : Dim) (payload : List Item) :
    (s.latch op strict n payload).IB = latchItems n.toNat payload s.IB := rfl

@[simp] theorem State.latch_cmdr (op : InvOp) (strict : Bool) (n : Dim) (payload : List Item) :
    (s.latch op strict n payload).cmdr = { op := op, strict := strict, n := n } := rfl

@[simp] theorem State.latch_ph (op : InvOp) (strict : Bool) (n : Dim) (payload : List Item) :
    (s.latch op strict n payload).ph = .init := rfl

@[simp] theorem State.latch_j (op : InvOp) (strict : Bool) (n : Dim) (payload : List Item) :
    (s.latch op strict n payload).j = s.j := rfl

@[simp] theorem State.latch_p (op : InvOp) (strict : Bool) (n : Dim) (payload : List Item) :
    (s.latch op strict n payload).p = s.p := rfl

@[simp] theorem State.latch_found (op : InvOp) (strict : Bool) (n : Dim) (payload : List Item) :
    (s.latch op strict n payload).found = s.found := rfl

@[simp] theorem State.latch_inv (op : InvOp) (strict : Bool) (n : Dim) (payload : List Item) :
    (s.latch op strict n payload).inv = s.inv := rfl

/-! ## `State.raise` -/

@[simp] theorem State.raise_cfg (e : ErrorKind) :
    (s.raise e).cfg = s.cfg := rfl

@[simp] theorem State.raise_requests (e : ErrorKind) :
    (s.raise e).requests = s.requests.tail := rfl

@[simp] theorem State.raise_responses (e : ErrorKind) :
    (s.raise e).responses = s.responses ++ [{ sts := stsError e, payload := [] }] := rfl

@[simp] theorem State.raise_W (e : ErrorKind) :
    (s.raise e).W = s.W := rfl

@[simp] theorem State.raise_C (e : ErrorKind) :
    (s.raise e).C = s.C := rfl

@[simp] theorem State.raise_IB (e : ErrorKind) :
    (s.raise e).IB = s.IB := rfl

@[simp] theorem State.raise_cmdr (e : ErrorKind) :
    (s.raise e).cmdr = s.cmdr := rfl

@[simp] theorem State.raise_ph (e : ErrorKind) :
    (s.raise e).ph = s.ph := rfl

@[simp] theorem State.raise_j (e : ErrorKind) :
    (s.raise e).j = s.j := rfl

@[simp] theorem State.raise_p (e : ErrorKind) :
    (s.raise e).p = s.p := rfl

@[simp] theorem State.raise_found (e : ErrorKind) :
    (s.raise e).found = s.found := rfl

@[simp] theorem State.raise_inv (e : ErrorKind) :
    (s.raise e).inv = s.inv := rfl

/-! ## `State.offer` -/

@[simp] theorem State.offer_cfg (r : Request) :
    (s.offer r).cfg = s.cfg := rfl

@[simp] theorem State.offer_requests (r : Request) :
    (s.offer r).requests = s.requests ++ [r] := rfl

@[simp] theorem State.offer_responses (r : Request) :
    (s.offer r).responses = s.responses := rfl

@[simp] theorem State.offer_W (r : Request) :
    (s.offer r).W = s.W := rfl

@[simp] theorem State.offer_C (r : Request) :
    (s.offer r).C = s.C := rfl

@[simp] theorem State.offer_IB (r : Request) :
    (s.offer r).IB = s.IB := rfl

@[simp] theorem State.offer_cmdr (r : Request) :
    (s.offer r).cmdr = s.cmdr := rfl

@[simp] theorem State.offer_ph (r : Request) :
    (s.offer r).ph = s.ph := rfl

@[simp] theorem State.offer_j (r : Request) :
    (s.offer r).j = s.j := rfl

@[simp] theorem State.offer_p (r : Request) :
    (s.offer r).p = s.p := rfl

@[simp] theorem State.offer_found (r : Request) :
    (s.offer r).found = s.found := rfl

@[simp] theorem State.offer_inv (r : Request) :
    (s.offer r).inv = s.inv := rfl

/-! ## `State.initStep` -/

@[simp] theorem State.initStep_cfg :
    (s.initStep).cfg = s.cfg := rfl

@[simp] theorem State.initStep_requests :
    (s.initStep).requests = s.requests := rfl

@[simp] theorem State.initStep_responses :
    (s.initStep).responses = s.responses := rfl

@[simp] theorem State.initStep_W :
    (s.initStep).W = loadRows s.cmdr.op s.cmdr.n.toNat s.IB s.W := rfl

@[simp] theorem State.initStep_C :
    (s.initStep).C = identityRows s.cmdr.n.toNat s.C := rfl

@[simp] theorem State.initStep_IB :
    (s.initStep).IB = s.IB := rfl

@[simp] theorem State.initStep_cmdr :
    (s.initStep).cmdr = s.cmdr := rfl

@[simp] theorem State.initStep_ph :
    (s.initStep).ph = .pivot := rfl

@[simp] theorem State.initStep_j :
    (s.initStep).j = 0 := rfl

@[simp] theorem State.initStep_p :
    (s.initStep).p = s.p := rfl

@[simp] theorem State.initStep_found :
    (s.initStep).found = s.found := rfl

@[simp] theorem State.initStep_inv :
    (s.initStep).inv = true := rfl

/-! ## `State.pivotStep` -/

@[simp] theorem State.pivotStep_cfg :
    (s.pivotStep).cfg = s.cfg := rfl

@[simp] theorem State.pivotStep_requests :
    (s.pivotStep).requests = s.requests := rfl

@[simp] theorem State.pivotStep_responses :
    (s.pivotStep).responses = s.responses := rfl

@[simp] theorem State.pivotStep_W :
    (s.pivotStep).W = s.W := rfl

@[simp] theorem State.pivotStep_C :
    (s.pivotStep).C = s.C := rfl

@[simp] theorem State.pivotStep_IB :
    (s.pivotStep).IB = s.IB := rfl

@[simp] theorem State.pivotStep_cmdr :
    (s.pivotStep).cmdr = s.cmdr := rfl

@[simp] theorem State.pivotStep_ph :
    (s.pivotStep).ph = phaseAfterScan s.cfg.policy (findPivot s.W s.cmdr.n.toNat s.j.toNat).isSome := rfl

@[simp] theorem State.pivotStep_j :
    (s.pivotStep).j = s.j := rfl

@[simp] theorem State.pivotStep_p :
    (s.pivotStep).p = ((findPivot s.W s.cmdr.n.toNat s.j.toNat).map (BitVec.ofNat 16)).getD s.p := rfl

@[simp] theorem State.pivotStep_found :
    (s.pivotStep).found = (findPivot s.W s.cmdr.n.toNat s.j.toNat).isSome := rfl

@[simp] theorem State.pivotStep_inv :
    (s.pivotStep).inv = invAfterScan s.inv (findPivot s.W s.cmdr.n.toNat s.j.toNat).isSome := rfl

/-! ## `State.swapStep` -/

@[simp] theorem State.swapStep_cfg :
    (s.swapStep).cfg = s.cfg := rfl

@[simp] theorem State.swapStep_requests :
    (s.swapStep).requests = s.requests := rfl

@[simp] theorem State.swapStep_responses :
    (s.swapStep).responses = s.responses := rfl

@[simp] theorem State.swapStep_W :
    (s.swapStep).W = swapRows s.j.toNat s.p.toNat s.W := rfl

@[simp] theorem State.swapStep_C :
    (s.swapStep).C = swapRows s.j.toNat s.p.toNat s.C := rfl

@[simp] theorem State.swapStep_IB :
    (s.swapStep).IB = s.IB := rfl

@[simp] theorem State.swapStep_cmdr :
    (s.swapStep).cmdr = s.cmdr := rfl

@[simp] theorem State.swapStep_ph :
    (s.swapStep).ph = .elim := rfl

@[simp] theorem State.swapStep_j :
    (s.swapStep).j = s.j := rfl

@[simp] theorem State.swapStep_p :
    (s.swapStep).p = s.p := rfl

@[simp] theorem State.swapStep_found :
    (s.swapStep).found = s.found := rfl

@[simp] theorem State.swapStep_inv :
    (s.swapStep).inv = s.inv := rfl

/-! ## `State.elimStep` -/

@[simp] theorem State.elimStep_cfg :
    (s.elimStep).cfg = s.cfg := rfl

@[simp] theorem State.elimStep_requests :
    (s.elimStep).requests = s.requests := rfl

@[simp] theorem State.elimStep_responses :
    (s.elimStep).responses = s.responses := rfl

@[simp] theorem State.elimStep_W :
    (s.elimStep).W = elimRows s.W s.cmdr.n.toNat s.j.toNat s.W := rfl

@[simp] theorem State.elimStep_C :
    (s.elimStep).C = elimRows s.W s.cmdr.n.toNat s.j.toNat s.C := rfl

@[simp] theorem State.elimStep_IB :
    (s.elimStep).IB = s.IB := rfl

@[simp] theorem State.elimStep_cmdr :
    (s.elimStep).cmdr = s.cmdr := rfl

@[simp] theorem State.elimStep_ph :
    (s.elimStep).ph = .next := rfl

@[simp] theorem State.elimStep_j :
    (s.elimStep).j = s.j := rfl

@[simp] theorem State.elimStep_p :
    (s.elimStep).p = s.p := rfl

@[simp] theorem State.elimStep_found :
    (s.elimStep).found = s.found := rfl

@[simp] theorem State.elimStep_inv :
    (s.elimStep).inv = s.inv := rfl

/-! ## `State.nextStep` -/

@[simp] theorem State.nextStep_cfg :
    (s.nextStep).cfg = s.cfg := by
  unfold State.nextStep; split <;> rfl

@[simp] theorem State.nextStep_requests :
    (s.nextStep).requests = s.requests := by
  unfold State.nextStep; split <;> rfl

@[simp] theorem State.nextStep_responses :
    (s.nextStep).responses = s.responses := by
  unfold State.nextStep; split <;> rfl

@[simp] theorem State.nextStep_W :
    (s.nextStep).W = s.W := by
  unfold State.nextStep; split <;> rfl

@[simp] theorem State.nextStep_C :
    (s.nextStep).C = s.C := by
  unfold State.nextStep; split <;> rfl

@[simp] theorem State.nextStep_IB :
    (s.nextStep).IB = s.IB := by
  unfold State.nextStep; split <;> rfl

@[simp] theorem State.nextStep_cmdr :
    (s.nextStep).cmdr = s.cmdr := by
  unfold State.nextStep; split <;> rfl

@[simp] theorem State.nextStep_ph :
    (s.nextStep).ph = if s.j.toNat + 1 < s.cmdr.n.toNat then .pivot else .fin := by
  unfold State.nextStep; split <;> rfl

@[simp] theorem State.nextStep_j :
    (s.nextStep).j = if s.j.toNat + 1 < s.cmdr.n.toNat then s.j + 1 else s.j := by
  unfold State.nextStep; split <;> rfl

@[simp] theorem State.nextStep_p :
    (s.nextStep).p = s.p := by
  unfold State.nextStep; split <;> rfl

@[simp] theorem State.nextStep_found :
    (s.nextStep).found = s.found := by
  unfold State.nextStep; split <;> rfl

@[simp] theorem State.nextStep_inv :
    (s.nextStep).inv = s.inv := by
  unfold State.nextStep; split <;> rfl

/-! ## `State.finStep` -/

@[simp] theorem State.finStep_cfg :
    (s.finStep).cfg = s.cfg := rfl

@[simp] theorem State.finStep_requests :
    (s.finStep).requests = s.requests := rfl

@[simp] theorem State.finStep_responses :
    (s.finStep).responses = s.responses ++ [inversionResponse s.cmdr.op s.cmdr.strict s.inv s.cmdr.n.toNat s.C] := rfl

@[simp] theorem State.finStep_W :
    (s.finStep).W = s.W := rfl

@[simp] theorem State.finStep_C :
    (s.finStep).C = s.C := rfl

@[simp] theorem State.finStep_IB :
    (s.finStep).IB = s.IB := rfl

@[simp] theorem State.finStep_cmdr :
    (s.finStep).cmdr = s.cmdr := rfl

@[simp] theorem State.finStep_ph :
    (s.finStep).ph = .idle := rfl

@[simp] theorem State.finStep_j :
    (s.finStep).j = s.j := rfl

@[simp] theorem State.finStep_p :
    (s.finStep).p = s.p := rfl

@[simp] theorem State.finStep_found :
    (s.finStep).found = s.found := rfl

@[simp] theorem State.finStep_inv :
    (s.finStep).inv = s.inv := rfl

/-! ## Reset -/

@[simp] theorem State.resetOf_cfg (c : Config) : (State.resetOf c).cfg = c := rfl

@[simp] theorem State.resetOf_requests (c : Config) : (State.resetOf c).requests = [] := rfl

@[simp] theorem State.resetOf_responses (c : Config) : (State.resetOf c).responses = [] := rfl

@[simp] theorem State.resetOf_W (c : Config) : (State.resetOf c).W = List.replicate c.nMax 0 := rfl

@[simp] theorem State.resetOf_C (c : Config) : (State.resetOf c).C = List.replicate c.nMax 0 := rfl

@[simp] theorem State.resetOf_IB (c : Config) : (State.resetOf c).IB = List.replicate c.nMax (.row 0) := rfl

@[simp] theorem State.resetOf_cmdr (c : Config) : (State.resetOf c).cmdr = { op := .invp, strict := false, n := 0 } := rfl

@[simp] theorem State.resetOf_ph (c : Config) : (State.resetOf c).ph = .idle := rfl

@[simp] theorem State.resetOf_j (c : Config) : (State.resetOf c).j = 0 := rfl

@[simp] theorem State.resetOf_p (c : Config) : (State.resetOf c).p = 0 := rfl

@[simp] theorem State.resetOf_found (c : Config) : (State.resetOf c).found = false := rfl

@[simp] theorem State.resetOf_inv (c : Config) : (State.resetOf c).inv = false := rfl

@[simp] theorem State.resetEvent_cfg : s.resetEvent.cfg = s.cfg := rfl

@[simp] theorem State.resetEvent_requests : s.resetEvent.requests = s.requests := rfl

@[simp] theorem State.resetEvent_responses : s.resetEvent.responses = s.responses := rfl

@[simp] theorem State.resetEvent_ph : s.resetEvent.ph = .idle := rfl

@[simp] theorem State.resetEvent_W : s.resetEvent.W = List.replicate s.cfg.nMax 0 := rfl

@[simp] theorem State.resetEvent_C : s.resetEvent.C = List.replicate s.cfg.nMax 0 := rfl

@[simp] theorem State.resetEvent_IB : s.resetEvent.IB = List.replicate s.cfg.nMax (.row 0) := rfl

end Sys2Proof.Machine
end

