-- ==== Sys2Proof/Laws/Ops.lean ====
section
/-! SUPPORT. What each shared operation can do, said once: acceptance, a micro-operation, the fetch and the step. -/

namespace Sys2Proof.Machine

/-! ## Verdicts -/

@[simp] theorem State.conclude_raise (s : State) (n : Dim) (p : List Item) (e : ErrorKind) :
    s.conclude n p (.raise e) = s.raise e := rfl

@[simp] theorem State.conclude_done (s : State) (n : Dim) (p out : List Item) :
    s.conclude n p (.done out) = s.takeRequest.respond stsOk out := rfl

@[simp] theorem State.conclude_start (s : State) (n : Dim) (p : List Item) (op : InvOp) (strict : Bool) :
    s.conclude n p (.start op strict) = s.takeRequest.latch op strict n p := rfl

/-! ## Acceptance -/

/-- Acceptance of a request on offer whose items fit. -/
theorem accept_of_offer {s : State} {r : Request} {rest : List Request} (n : Dim) (verdict : List Item → Verdict)
    (hi : s.ph = .idle) (hr : s.requests = r :: rest) (hf : payloadFits s.cfg r.payload = true) :
    accept s n verdict = .next (s.conclude n r.payload (verdict r.payload)) := by
  simp [accept, hi, hr, hf]

/-- A next state of acceptance is what the verdict on the request at the front concludes. -/
theorem accept_eq_next {s t : State} {n : Dim} {verdict : List Item → Verdict} (h : accept s n verdict = .next t) :
    ∃ r rest, s.ph = .idle ∧ s.requests = r :: rest ∧ payloadFits s.cfg r.payload = true ∧
      t = s.conclude n r.payload (verdict r.payload) := by
  unfold accept at h
  split at h
  · split at h
    · cases h
    · split at h
      · exact ⟨_, _, ‹_›, ‹_›, ‹_›, by simpa using h.symm⟩
      · cases h
  · cases h

theorem accept_of_not_idle {s : State} (n : Dim) (verdict : List Item → Verdict) (h : s.ph ≠ .idle) :
    accept s n verdict = .fault .notEnabled := by
  unfold accept
  split
  · exact absurd ‹_› h
  · rfl

/-! ## Micro-operations -/

theorem whenPhase_of_eq {s : State} {ph : Phase} (f : State → State) (h : s.ph = ph) :
    whenPhase s ph f = .next (f s) := by
  simp [whenPhase, h]

theorem whenPhase_of_ne {s : State} {ph : Phase} (f : State → State) (h : s.ph ≠ ph) :
    whenPhase s ph f = .fault .notEnabled := by
  simp [whenPhase, h]

theorem whenPhase_eq_next {s t : State} {ph : Phase} {f : State → State} (h : whenPhase s ph f = .next t) :
    s.ph = ph ∧ t = f s := by
  unfold whenPhase at h
  split at h
  · exact ⟨‹_›, by simpa using h.symm⟩
  · cases h

/-! ## The fetch -/

/-- In a phase that enables a micro-operation, that is what runs. -/
theorem fetch_of_microOp {s : State} {i : Instr} (h : microOpOf s.ph = some i) : fetch s = .run i := by
  simp [fetch, h]

theorem fetch_of_idle {s : State} (h : s.ph = .idle) :
    fetch s = match s.requests with
      | [] => .wait
      | r :: _ => match decodeCommand r.cmd with
        | .ok i => .run i
        | .error e => .illegal e := by
  unfold fetch
  split
  · simp_all [microOpOf]
  · rfl

/-! ## The step -/

/-- The decoder gives commands alone, and their meanings are acceptances. -/
theorem exec_of_decodeCommand {w : CmdWord} {i : Instr} (h : decodeCommand w = .ok i) (s : State) :
    ∃ n verdict, exec i s = accept s n verdict := by
  unfold decodeCommand at h
  split at h
  · cases h
  · split at h
    · split at h <;> simp_all
      subst h
      exact ⟨_, _, rfl⟩
    · split at h <;> simp_all
      subst h
      exact ⟨_, _, rfl⟩
    · cases h
      exact ⟨_, _, rfl⟩
    · cases h
      exact ⟨_, _, rfl⟩
    · cases h

/-- What a step can do: wait, reject a word that is no command, accept a command, or run the one micro-operation
of the phase. -/
theorem step_cases {s t : State} (h : step s = .next t) :
    (s.ph = .idle ∧ s.requests = [] ∧ t = s) ∨
    (s.ph = .idle ∧ (∃ r rest e, s.requests = r :: rest ∧ decodeCommand r.cmd = .error e) ∧
      t = s.raise .illegalCommand) ∨
    (s.ph = .idle ∧ ∃ r rest i, s.requests = r :: rest ∧ decodeCommand r.cmd = .ok i ∧ exec i s = .next t) ∨
    (s.ph = .init ∧ t = s.initStep) ∨ (s.ph = .pivot ∧ t = s.pivotStep) ∨ (s.ph = .swap ∧ t = s.swapStep) ∨
    (s.ph = .elim ∧ t = s.elimStep) ∨ (s.ph = .next ∧ t = s.nextStep) ∨ (s.ph = .fin ∧ t = s.finStep) := by
  have micro : ∀ {ph : Phase} {i : Instr} {f : State → State}, s.ph = ph → microOpOf ph = some i →
      exec i s = whenPhase s ph f → t = f s := by
    intro ph i f hp hm he
    have hf : fetch s = .run i := fetch_of_microOp (by rw [hp, hm])
    simp only [step, hf, he] at h
    exact (whenPhase_eq_next h).2
  cases hp : s.ph with
  | idle =>
    rw [step, fetch_of_idle hp] at h
    cases hr : s.requests with
    | nil =>
      rw [hr] at h
      exact .inl ⟨rfl, rfl, by simpa using h.symm⟩
    | cons r rest =>
      rw [hr] at h
      cases hd : decodeCommand r.cmd with
      | ok i =>
        simp only [hd] at h
        exact .inr (.inr (.inl ⟨rfl, r, rest, i, rfl, hd, h⟩))
      | error e =>
        simp only [hd] at h
        exact .inr (.inl ⟨rfl, ⟨r, rest, e, rfl, hd⟩, by simpa using h.symm⟩)
  | init => simp [micro (f := State.initStep) hp rfl rfl]
  | pivot => simp [micro (f := State.pivotStep) hp rfl rfl]
  | swap => simp [micro (f := State.swapStep) hp rfl rfl]
  | elim => simp [micro (f := State.elimStep) hp rfl rfl]
  | next => simp [micro (f := State.nextStep) hp rfl rfl]
  | fin => simp [micro (f := State.finStep) hp rfl rfl]

end Sys2Proof.Machine
end

