-- ==== Sys2Proof/Laws/PerInstr.lean ====
section
/-! SUPPORT. The family of statements made of every instruction: its encoding has the opcode table's fixed bits
(30_encoding.md R74, R81). -/

namespace Sys2Proof.Laws

/-- The table's mask and match for a command (R74); a micro-operation's code is matched whole (R81). -/
def tableBits : Instr → Nat × Nat
  | .unpack _ => (0xFF0000FF, 0x00000001)
  | .pack _ => (0xFF0000FF, 0x00000002)
  | .invg _ _ => (0xFF0000EF, 0x00000003)
  | .invp _ _ => (0xFF0000EF, 0x00000004)
  | .mInit => (0x7, 0x1)
  | .mPivot => (0x7, 0x2)
  | .mSwap => (0x7, 0x3)
  | .mElim => (0x7, 0x4)
  | .mNext => (0x7, 0x5)
  | .mFin => (0x7, 0x6)

/-- `w & mask = match` for the word of the instruction's encoding. -/
def TableMatch.Statement (i : Instr) : Prop :=
  match encode i with
  | .cmd w => w &&& BitVec.ofNat 32 (tableBits i).1 = BitVec.ofNat 32 (tableBits i).2
  | .phase c => c &&& BitVec.ofNat 3 (tableBits i).1 = BitVec.ofNat 3 (tableBits i).2

/-- The fixed bits of a command word, bit by bit: the mask covers everything but `n` and, where `strict` is free, bit 4. -/
theorem commandWord_and (op : OpField) (strict : Bool) (n : Dim) (mask match' : BitVec 32)
    (hn : ∀ k < 16, mask.getLsbD (8 + k) = false)
    (hs : strict = true → mask.getLsbD 4 = false)
    (hz : ∀ k < 32, (mask.getLsbD k && decide (k < 4) && op.getLsbD k) = match'.getLsbD k) :
    commandWord op strict n &&& mask = match' := by
  apply BitVec.eq_of_getLsbD_eq
  intro k hk
  rw [BitVec.getLsbD_and, commandWord_getLsbD, ← hz k hk]
  by_cases h4 : k < 4
  · simp [h4, Bool.and_comm]
  · by_cases h5 : k = 4
    · subst h5
      cases strict
      · simp
      · simpa using hs rfl
    · by_cases h8 : 8 ≤ k
      · by_cases h16 : k - 8 < 16
        · have := hn (k - 8) h16
          rw [show 8 + (k - 8) = k by omega] at this
          simp [h4, this]
        · simp [h4, h5, BitVec.getLsbD_of_ge n (k - 8) (by omega)]
      · simp [h4, h5, h8]

theorem TableMatch.unpack (n : Dim) : TableMatch.Statement (.unpack n) :=
  commandWord_and 1 false n (BitVec.ofNat 32 0xFF0000FF) (BitVec.ofNat 32 0x00000001) (by decide) (by decide) (by decide)

theorem TableMatch.pack (n : Dim) : TableMatch.Statement (.pack n) :=
  commandWord_and 2 false n (BitVec.ofNat 32 0xFF0000FF) (BitVec.ofNat 32 0x00000002) (by decide) (by decide) (by decide)

theorem TableMatch.invg (n : Dim) (strict : Bool) : TableMatch.Statement (.invg n strict) :=
  commandWord_and 3 strict n (BitVec.ofNat 32 0xFF0000EF) (BitVec.ofNat 32 0x00000003) (by decide) (fun _ => by decide) (by decide)

theorem TableMatch.invp (n : Dim) (strict : Bool) : TableMatch.Statement (.invp n strict) :=
  commandWord_and 4 strict n (BitVec.ofNat 32 0xFF0000EF) (BitVec.ofNat 32 0x00000004) (by decide) (fun _ => by decide) (by decide)

theorem TableMatch.mInit : TableMatch.Statement .mInit := rfl

theorem TableMatch.mPivot : TableMatch.Statement .mPivot := rfl

theorem TableMatch.mSwap : TableMatch.Statement .mSwap := rfl

theorem TableMatch.mElim : TableMatch.Statement .mElim := rfl

theorem TableMatch.mNext : TableMatch.Statement .mNext := rfl

theorem TableMatch.mFin : TableMatch.Statement .mFin := rfl

end Sys2Proof.Laws
end

