-- ==== Sys2Proof/Tests/Slice0.lean ====
section
/-! SUPPORT. The model's own tests. Expected results are those of spec/95_test_vectors.md (V<n>) and of the rules'
examples; the witnesses show that the hypotheses of each statement can be met. -/

namespace Sys2Proof.Tests

open Sys2Proof.Machine

/-! ## Small states -/

/-- A small instance with cells of 8 bits. -/
def small (policy : SingPolicy) : Config := { nMax := 3, cellW := 8, policy := policy }

/-- Idle, with one request on offer. -/
def offering (w : CmdWord) (payload : List Item) : State :=
  (State.resetOf (small .skip)).offer { cmd := w, payload := payload }

/-- An INVP of dimension 3 in progress. -/
def inPhase (policy : SingPolicy) (ph : Phase) (j p : Dim) (inv : Bool) (w comp ib : List Nat) : State :=
  { State.resetOf (small policy) with
    W := w, C := comp, IB := ib.map .row, cmdr := { op := .invp, strict := false, n := 3 }
    ph := ph, j := j, p := p, inv := inv }

/-- What a next state answers and holds in the fields that `f` reads. -/
def after (o : Host.Outcome State Fault Refusal) {α : Type} (f : State → α) : Option α := (nextOf o).map f

/-! ## Well-formedness: what each check refuses -/

theorem test_wf_reference : Config.reference.WellFormed := by decide

theorem test_wf_refuses_nMax_zero : ¬ Config.WellFormed { nMax := 0, cellW := 1, policy := .skip } := by decide

theorem test_wf_refuses_nMax_65536 : ¬ Config.WellFormed { nMax := 65536, cellW := 1, policy := .skip } := by decide

theorem test_wf_refuses_cellW_zero : ¬ Config.WellFormed { nMax := 32, cellW := 0, policy := .skip } := by decide

theorem test_wf_admits_dimension_nMax : Instr.WellFormed Config.reference (.invp 32 true) := by decide

theorem test_wf_refuses_dimension_zero : ¬ Instr.WellFormed Config.reference (.unpack 0) := by decide

theorem test_wf_refuses_dimension_33 : ¬ Instr.WellFormed Config.reference (.pack 33) := by decide

theorem test_wf_refuses_invg_zero : ¬ Instr.WellFormed Config.reference (.invg 0 false) := by decide

theorem test_wf_refuses_invp_33 : ¬ Instr.WellFormed Config.reference (.invp 33 true) := by decide

theorem test_store_refuses_short : Memory.wf (small .skip) [0, 0] = false := by decide

theorem test_store_refuses_wide_row : Memory.wf (small .skip) [0, 8, 0] = false := by decide

/-! ## Decoding: words written out from 30_encoding.md R70: rsv1, n, rsv0, strict, op -/

theorem test_decode_unpack : decodeCommand 0b00000000_0000000000000100_000_0_0001 = .ok (.unpack 4) := by rfl

theorem test_decode_pack : decodeCommand 0b00000000_0000000000000100_000_0_0010 = .ok (.pack 4) := by rfl

theorem test_decode_invg : decodeCommand 0b00000000_0000000000000011_000_0_0011 = .ok (.invg 3 false) := by rfl

theorem test_decode_invg_strict : decodeCommand 0b00000000_0000000000000011_000_1_0011 = .ok (.invg 3 true) := by rfl

theorem test_decode_invp_strict : decodeCommand 0b00000000_0000000000100000_000_1_0100 = .ok (.invp 32 true) := by rfl

/-- V88: `n` uses all of bits 23:8. -/
theorem test_decode_invp_largest : decodeCommand 0b00000000_1111111111111111_000_0_0100 = .ok (.invp 65535 false) := by rfl

theorem test_decode_mInit : decodePhase 0b001 = .ok .mInit := by rfl

theorem test_decode_mPivot : decodePhase 0b010 = .ok .mPivot := by rfl

theorem test_decode_mSwap : decodePhase 0b011 = .ok .mSwap := by rfl

theorem test_decode_mElim : decodePhase 0b100 = .ok .mElim := by rfl

theorem test_decode_mNext : decodePhase 0b101 = .ok .mNext := by rfl

theorem test_decode_mFin : decodePhase 0b110 = .ok .mFin := by rfl

/-- U10. -/
theorem test_decode_phase_seven : decodePhase 0b111 = .error .noMicroOp := by rfl

/-- V76 to V78, V86. -/
theorem test_decode_refuses_op :
    ([0x00000000, 0x00000205, 0x0000020F, 0x00000015] : List CmdWord).map (fun w => (decodeCommand w).toOption) =
      [none, none, none, none] := by decide

/-- V79 to V85. -/
theorem test_decode_refuses_reserved_and_strict :
    ([0x01000204, 0x80000204, 0x00000224, 0x00000284, 0x00000411, 0x00000412, 0xFFFFFFFF] : List CmdWord).map
      (fun w => (decodeCommand w).toOption) = [none, none, none, none, none, none, none] := by decide

/-- The examples of 30_encoding.md R74. -/
theorem test_encode_examples :
    encode (.invp 2 false) = .cmd 0x00000204 ∧ encode (.invp 32 true) = .cmd 0x00002014 ∧
    encode (.invg 3 false) = .cmd 0x00000303 ∧ encode (.unpack 4) = .cmd 0x00000401 ∧
    encode (.pack 4) = .cmd 0x00000402 := by decide

theorem test_table_rows :
    decodeTableWord 32 0x00000401 = some (.unpack 4) ∧ decodeTableWord 8 0x1 = some .mInit ∧
    decodeTableWord 8 0x6 = some .mFin ∧ decodeTableWord 8 0x0 = none ∧ decodeTableWord 8 0x9 = none := by decide

/-! ## Instructions -/

/-- V11: bit 2 is ignored, column 0 first. -/
theorem test_unpack :
    after (step (offering 0x00000201 [.row 0b110])) (·.responses) =
      some [{ sts := 0x00000001, payload := [.cells [0, 1]] }] := by decide

/-- V29a. -/
theorem test_unpack_two_rows :
    after (step (offering 0x00000201 [.row 1, .row 2])) (·.responses) =
      some [{ sts := 0x00000010, payload := [] }] := by decide

/-- V18's weights, at n = 3: column 0 is the least significant. -/
theorem test_pack :
    after (step (offering 0x00000302 [.cells [0, 1, 1]])) (·.responses) =
      some [{ sts := 0x00000001, payload := [.row 0b110] }] := by decide

/-- V25. -/
theorem test_pack_bad_cell :
    after (step (offering 0x00000202 [.cells [1, 2]])) (fun t => (t.responses, t.requests, t.ph)) =
      some ([{ sts := 0x00000020, payload := [] }], [], .idle) := by decide

/-- V61 with `strict`: V63. -/
theorem test_invg_bad_cell :
    after (step (offering 0x00000213 [.cells [1, 2], .cells [0, 1]])) (·.responses) =
      some [{ sts := 0x00000020, payload := [] }] := by decide

/-- R42: the grid is latched, no response yet. -/
theorem test_invg_starts :
    after (step (offering 0x00000203 [.cells [1, 1], .cells [0, 1]])) (fun t => (t.IB, t.cmdr, t.ph, t.responses)) =
      some ([.cells [1, 1], .cells [0, 1], .row 0], { op := .invg, strict := false, n := 2 }, .init, []) := by decide

/-- V57. -/
theorem test_invp_short_payload :
    after (step (offering 0x00000304 [.row 1, .row 2])) (·.responses) =
      some [{ sts := 0x00000010, payload := [] }] := by decide

/-- R42, with `strict`. -/
theorem test_invp_starts :
    after (step (offering 0x00000214 [.row 3, .row 2])) (fun t => (t.IB, t.cmdr, t.ph, t.responses)) =
      some ([.row 3, .row 2, .row 0], { op := .invp, strict := true, n := 2 }, .init, []) := by decide

/-- V76. -/
theorem test_illegal_command :
    after (step (offering 0x00000000 [.row 1])) (·.responses) = some [{ sts := 0x00000040, payload := [] }] := by decide

/-- V90. -/
theorem test_mInit :
    after (exec .mInit (inPhase .skip .init 2 2 false [7, 7, 7] [7, 7, 7] [0b110, 0b101, 0b010]))
        (fun t => (t.W, t.C, t.j, t.inv, t.ph)) =
      some ([0b110, 0b101, 0b010], [0b001, 0b010, 0b100], 0, true, .pivot) := by decide

/-- V91: bits at and above `n` are dropped, and row 2 is not touched. -/
theorem test_mInit_drops_high_bits :
    after (exec .mInit { inPhase .skip .init 0 0 false [7, 7, 7] [7, 7, 7] [0b111, 0b110, 0b001] with
        cmdr := { op := .invp, strict := false, n := 2 } }) (fun t => (t.W, t.C)) =
      some ([0b11, 0b10, 7], [0b01, 0b10, 7]) := by decide

/-- V92. -/
theorem test_mPivot_found :
    after (exec .mPivot (inPhase .skip .pivot 0 0 true [0b110, 0b101, 0b010] [1, 2, 4] [0, 0, 0]))
        (fun t => (t.p, t.found, t.inv, t.ph)) = some (1, true, true, .swap) := by decide

/-- V93, under both policies. -/
theorem test_mPivot_none :
    after (exec .mPivot (inPhase .skip .pivot 1 2 true [0b011, 0b000, 0b100] [1, 2, 4] [0, 0, 0]))
        (fun t => (t.p, t.found, t.inv, t.ph)) = some (2, false, false, .next) ∧
    after (exec .mPivot (inPhase .degenerate .pivot 1 2 true [0b011, 0b000, 0b100] [1, 2, 4] [0, 0, 0]))
        (fun t => (t.p, t.found, t.inv, t.ph)) = some (2, false, false, .elim) := by decide

/-- V95. -/
theorem test_mSwap :
    after (exec .mSwap (inPhase .skip .swap 0 1 true [0b110, 0b101, 0b010] [0b001, 0b010, 0b100] [0, 0, 0]))
        (fun t => (t.W, t.C, t.ph)) = some ([0b101, 0b110, 0b010], [0b010, 0b001, 0b100], .elim) := by decide

/-- V96. -/
theorem test_mSwap_itself :
    after (exec .mSwap (inPhase .skip .swap 1 1 true [0b101, 0b110, 0b010] [0b010, 0b001, 0b100] [0, 0, 0]))
        (fun t => (t.W, t.C, t.ph)) = some ([0b101, 0b110, 0b010], [0b010, 0b001, 0b100], .elim) := by decide

/-- V97. -/
theorem test_mElim :
    after (exec .mElim (inPhase .skip .elim 2 2 true [0b101, 0b110, 0b100] [0b010, 0b001, 0b101] [0, 0, 0]))
        (fun t => (t.W, t.C, t.ph)) = some ([0b001, 0b010, 0b100], [0b111, 0b100, 0b101], .next) := by decide

/-- V99. -/
theorem test_mElim_degenerate :
    after (exec .mElim (inPhase .degenerate .elim 1 0 false [0b011, 0b000, 0b100] [0b001, 0b011, 0b100] [0, 0, 0]))
        (fun t => (t.W, t.C, t.ph)) = some ([0b011, 0b000, 0b100], [0b010, 0b011, 0b100], .next) := by decide

/-- V100. -/
theorem test_mNext :
    after (exec .mNext (inPhase .skip .next 1 0 true [1, 2, 4] [1, 2, 4] [0, 0, 0])) (fun t => (t.j, t.ph)) =
      some (2, .pivot) := by decide

/-- V101. -/
theorem test_mNext_last :
    after (exec .mNext (inPhase .skip .next 2 0 true [1, 2, 4] [1, 2, 4] [0, 0, 0])) (fun t => (t.j, t.ph)) =
      some (2, .fin) := by decide

/-- V103. -/
theorem test_mFin :
    after (exec .mFin (inPhase .skip .fin 2 0 true [1, 2, 4] [0b111, 0b100, 0b101] [0, 0, 0]))
        (fun t => (t.responses, t.ph)) =
      some ([{ sts := 0x00000003, payload := [.row 0b111, .row 0b100, .row 0b101] }], .idle) := by decide

/-- V105 and V106. -/
theorem test_mFin_strict_and_grid :
    after (exec .mFin { inPhase .skip .fin 2 0 false [3, 0, 4] [0b001, 0b011, 0b100] [0, 0, 0] with
        cmdr := { op := .invp, strict := true, n := 3 } }) (·.responses) =
      some [{ sts := 0x00000030, payload := [] }] ∧
    after (exec .mFin { inPhase .skip .fin 2 0 true [1, 2, 4] [0b111, 0b100, 0b101] [0, 0, 0] with
        cmdr := { op := .invg, strict := false, n := 3 } }) (·.responses) =
      some [{ sts := 0x00000003, payload := [.cells [1, 1, 1], .cells [0, 0, 1], .cells [1, 0, 1]] }] := by decide

/-- The table's first row and a micro-operation, run as the first step after reset. -/
theorem test_placed_words_run :
    after (step (State.reset.withFetchWord 32 0x00000401)) (·.responses) =
      some [{ sts := 0x00000001, payload := [.cells [0, 0, 0, 0]] }] ∧
    after (step (State.reset.withFetchWord 8 0x1)) (·.ph) = some .pivot := by decide

/-- V31's reference result under both policies. -/
theorem test_invertRef_policies :
    invertRef (unpackGrid 3 [0b011, 0b011, 0b100]) 3 .skip = (unpackGrid 3 [0b001, 0b011, 0b100], false) ∧
    invertRef (unpackGrid 3 [0b011, 0b011, 0b100]) 3 .degenerate = (unpackGrid 3 [0b010, 0b011, 0b100], false) := by decide

/-- V32's vector example. -/
theorem test_apply :
    apply 3 (unpackGrid 3 [0b110, 0b101, 0b010]) [0xDE, 0xAD, 0xBE] = [0x13, 0x60, 0xAD] ∧
    applyPacked 3 [0b111, 0b100, 0b101] [0x13, 0x60, 0xAD] = [0xDE, 0xAD, 0xBE] := by decide

/-! ## Witnesses: the hypotheses of the statements can be met -/

/-- Idle, with an INVP of the source's example on offer. -/
def offersInvp : State := offering 0x00000204 [.row 0b11, .row 0b10]

/-- An accepted INVP, INV still 1 later: the run of T2. -/
def initial : State := inPhase .skip .init 0 0 false [0, 0, 0] [0, 0, 0] [0b110, 0b101, 0b010]

/-- The same in a block that is strict, for a singular input with a zero row. -/
def initialSingular : State :=
  { inPhase .degenerate .init 0 0 false [0, 0, 0] [0, 0, 0] [0b000, 0b010, 0b100] with
    cmdr := { op := .invp, strict := true, n := 3 } }

theorem witness_EncodeOfDecodedWordIsTheWord : decodeCommand 0x00000204 = .ok (.invp 2 false) := by rfl

theorem witness_DecodeReadsTheCommandFields :
    ((decodeCommand 0x00000001).toOption, (decodeCommand 0x00FFFF02).toOption, (decodeCommand 0x00FFFF13).toOption,
      (decodeCommand 0x00000014).toOption, (decodeCommand 0x00000005).toOption) =
    (some (.unpack 0), some (.pack 65535), some (.invg 65535 true), some (.invp 0 true), none) := by decide

theorem witness_StepRunsDecodedInstruction :
    offersInvp.Offers { cmd := 0x00000204, payload := [.row 0b11, .row 0b10] } [] ∧
    decode (.cmd 0x00000204) = .ok (.invp 2 false) ∧ decode (.phase (phaseCode initial.ph)) = .ok .mInit :=
  ⟨by decide, rfl, rfl⟩

theorem witness_PlacedWordIsRunNext :
    decodeTableWord 32 0x00002014 = some (.invp 32 true) ∧ decodeTableWord 8 0x4 = some .mElim := by decide

theorem witness_IdleWithoutRequestWaits : State.reset.ph = .idle ∧ State.reset.requests = [] := by decide

theorem witness_IllegalCommandIsRejected :
    (offering 0x01000204 []).ph = .idle ∧ (0x01000204 : CmdWord).extractLsb' 24 8 ≠ 0 ∧
    (0x00000224 : CmdWord).extractLsb' 5 3 ≠ 0 ∧ (0x00000200 : CmdWord).extractLsb' 0 4 = 0 ∧
    5 ≤ ((0x00000205 : CmdWord).extractLsb' 0 4).toNat ∧
    ((0x00000411 : CmdWord).extractLsb' 0 4 = 1 ∧ (0x00000411 : CmdWord).getLsbD 4 = true) := by decide

theorem witness_NothingElseIsEnabled :
    microOpOf initial.ph ≠ some .mFin ∧ initial.ph ≠ .idle ∧ State.reset.requests = [] := by decide

theorem witness_TooWideItemIsRefused :
    (offering 0x00000201 [.row 8]).Offers { cmd := 0x00000201, payload := [.row 8] } [] ∧
    payloadFits (small .skip) [.row 8] = false ∧ payloadFits (small .skip) [.cells [256]] = false := by decide

theorem witness_CodecRoundTrip :
    (5 < 2 ^ 3) ∧ ([1, 0, 1] : List Nat).length = 3 ∧ ∀ b ∈ ([1, 0, 1] : List Nat), b < 2 := by decide

theorem witness_UnpackAnswersTheBits :
    (offering 0x00000301 [.row 7]).Offers { cmd := 0x00000301, payload := [.row 7] } [] ∧
    Dim.WellFormed (small .skip) 3 ∧ 7 < 2 ^ (small .skip).nMax := by decide

theorem witness_PackAnswersTheSum :
    (offering 0x00000302 [.cells [0, 1, 1]]).Offers { cmd := 0x00000302, payload := [.cells [0, 1, 1]] } [] ∧
    (small .skip).WellFormed ∧ Dim.WellFormed (small .skip) 3 ∧ ∀ b ∈ ([0, 1, 1] : List Nat), b < 2 := by decide

theorem witness_UnpackThenPackReturnsTheRow :
    (offering (commandWord 1 false 2) [.row 3]).Offers { cmd := commandWord 1 false 2, payload := [.row 3] } [] ∧
    (small .skip).WellFormed ∧ Dim.WellFormed (small .skip) 2 ∧ 3 < 2 ^ 2 := by decide

/-- Each clause at a boundary: n = 0, n = `N_MAX` + 1, a payload of no item, a short sequence, a cell of 2. -/
theorem witness_CodecErrorsInOrder :
    payloadFits (small .skip) [.cells [1, 2]] = true ∧ ¬ Dim.WellFormed (small .skip) 0 ∧
    ¬ Dim.WellFormed (small .skip) 4 ∧ ([] : List Item).length ≠ 1 ∧ ([0, 1] : List Nat).length ≠ (3 : Dim).toNat ∧
    Dim.WellFormed (small .skip) 2 ∧ ([1, 2] : List Nat).length = (2 : Dim).toNat ∧ (∃ b ∈ [1, 2], 2 ≤ b) ∧
    (offering 0x00000202 [.cells [1, 2]]).Offers { cmd := 0x00000202, payload := [.cells [1, 2]] } [] := by decide

theorem witness_InversionErrorsInOrder :
    payloadFits (small .skip) [.cells [1, 2], .cells [0, 1]] = true ∧ Dim.WellFormed (small .skip) 2 ∧
    ([.cells [1, 2], .cells [0, 1]] : List Item).length = (2 : Dim).toNat ∧
    (∀ it ∈ ([.cells [1, 2], .cells [0, 1]] : List Item), isSeqOf 2 it = true) ∧
    ([.cells [1, 0], .cells [0]] : List Item).any (fun it => !isSeqOf 2 it) = true ∧
    (offering 0x00000213 [.cells [1, 2], .cells [0, 1]]).Offers
      { cmd := 0x00000213, payload := [.cells [1, 2], .cells [0, 1]] } [] := by decide

theorem witness_ItemOfOtherKindIsInvalidDimension :
    (offering 0x00000201 [.cells [0, 1]]).Offers { cmd := 0x00000201, payload := [.cells [0, 1]] } [] ∧
    payloadFits (small .skip) [.cells [0, 1]] = true ∧ payloadFits (small .skip) [.row 1] = true := by decide

/-- Each kind of answer from IDLE: a codec result and a rejection. -/
theorem witness_AnswerFromIdleChangesNoRegister :
    after (step (offering 0x00000201 [.row 1])) (fun t => t.responses.length) = some 1 ∧
    after (step (offering 0x00000004 [])) (fun t => t.responses.length) = some 1 := by decide

theorem witness_InvpIsLatched :
    offersInvp.Offers { cmd := 0x00000204, payload := [0b11, 0b10].map .row } [] ∧
    offersInvp.IB.length = offersInvp.cfg.nMax ∧ Dim.WellFormed offersInvp.cfg 2 ∧
    ∀ r ∈ [0b11, 0b10], r < 2 ^ offersInvp.cfg.nMax := by decide

theorem witness_InvgIsLatched :
    (offering 0x00000203 [.cells [1, 1], .cells [0, 1]]).Offers
      { cmd := 0x00000203, payload := [[1, 1], [0, 1]].map .cells } [] ∧ (small .skip).WellFormed ∧
    (State.resetOf (small .skip)).IB.length = 3 ∧ Dim.WellFormed (small .skip) 2 ∧
    ∀ cs ∈ [[1, 1], [0, 1]], cs.length = (2 : Dim).toNat ∧ ∀ b ∈ cs, b < 2 := by decide

/-- Both forms of the operation. -/
theorem witness_MInitLoadsBothStores :
    initial.Wf ∧ initial.ph = .init ∧ initial.IB[0]? = some (.row 0b110) ∧
    State.Wf { initial with
      IB := [.cells [0, 1, 1], .cells [1, 0, 1], .cells [0, 1, 0]], cmdr := { op := .invg, strict := false, n := 3 } } :=
  ⟨by decide, by decide, by decide, by decide⟩

/-- The first clause at row 1 below a 0, the second with every candidate 0. -/
theorem witness_MPivotFindsTheFirstRow :
    (readBit [0b110, 0b101, 0b010] 1 0 = true ∧ readBit [0b110, 0b101, 0b010] 0 0 = false) ∧
    (∀ i < 3, 1 ≤ i → readBit [0b011, 0b000, 0b100] i 1 = false) ∧
    (inPhase .skip .pivot 1 0 true [0b011, 0b000, 0b100] [1, 2, 4] [0, 0, 0]).ph = .pivot := by decide

theorem witness_MSwapExchangesRowsInBothStores :
    (inPhase .skip .swap 0 1 true [0b110, 0b101, 0b010] [1, 2, 4] [0, 0, 0]).Wf := by decide

/-- A column with a pivot, and one without under DEGENERATE. -/
theorem witness_MElimAddsThePivotRow :
    (inPhase .skip .elim 2 2 true [0b101, 0b110, 0b100] [0b010, 0b001, 0b101] [0, 0, 0]).Wf ∧
    readBit [0b101, 0b110, 0b100] 2 2 = true ∧
    (inPhase .degenerate .elim 1 0 false [0b011, 0b000, 0b100] [0b001, 0b011, 0b100] [0, 0, 0]).Wf ∧
    readBit [0b011, 0b000, 0b100] 1 1 = false :=
  ⟨by decide, by decide, by decide, by decide⟩

theorem witness_MNextAdvancesTheColumn :
    (inPhase .skip .next 1 0 true [1, 2, 4] [1, 2, 4] [0, 0, 0]).ph = .next ∧
    (inPhase .skip .next 1 0 true [1, 2, 4] [1, 2, 4] [0, 0, 0]).j.toNat + 1 < 3 ∧
    ¬ (inPhase .skip .next 2 0 true [1, 2, 4] [1, 2, 4] [0, 0, 0]).j.toNat + 1 < 3 := by decide

/-- The strict clause, and both formats. -/
theorem witness_MFinResponds :
    ({ inPhase .skip .fin 2 0 false [3, 0, 4] [1, 3, 4] [0, 0, 0] with
        cmdr := { op := .invp, strict := true, n := 3 } } : State).cmdr.strict = true ∧
    (inPhase .skip .fin 2 0 true [1, 2, 4] [7, 4, 5] [0, 0, 0]).cmdr.op = .invp ∧
    ({ inPhase .skip .fin 2 0 true [1, 2, 4] [7, 4, 5] [0, 0, 0] with
        cmdr := { op := .invg, strict := true, n := 3 } } : State).cmdr.op = .invg ∧
    (inPhase .skip .fin 2 0 true [1, 2, 4] [7, 4, 5] [0, 0, 0]).inv = true := by decide

theorem witness_ResetIsIdleAndWellFormed :
    Config.WellFormed { nMax := 65535, cellW := 1, policy := .degenerate } ∧
    Config.WellFormed { nMax := 1, cellW := 1, policy := .skip } := by decide

theorem witness_ResetEventAbandonsTheCommand : initial.Wf ∧ initial.Busy := by decide

/-- For the statements about every step: a state with all the invariants, in each phase, that steps. -/
theorem witness_steps_from_idle : offersInvp.Wf ∧ (nextOf (step offersInvp)).isSome = true := by decide

theorem witness_steps_from_init :
    (initial.Wf ∧ initial.AugmentedPair ∧ initial.PivotProgress) ∧ (nextOf (step initial)).isSome = true :=
  ⟨⟨by decide, by decide, by decide⟩, by decide⟩

/-- The state before M_PIVOT of column 0 in T2. -/
def atPivot : State := inPhase .skip .pivot 0 0 true [0b110, 0b101, 0b010] [1, 2, 4] [0b110, 0b101, 0b010]

theorem witness_steps_from_pivot :
    (atPivot.Wf ∧ atPivot.AugmentedPair ∧ atPivot.PivotProgress) ∧
      (nextOf (step atPivot)).isSome = true :=
  ⟨⟨by decide, by decide, by decide⟩, by decide⟩

/-- The state before M_SWAP of column 0 in T2. -/
def atSwap : State := inPhase .skip .swap 0 1 true [0b110, 0b101, 0b010] [1, 2, 4] [0b110, 0b101, 0b010]

theorem witness_steps_from_swap :
    (atSwap.Wf ∧ atSwap.AugmentedPair ∧ atSwap.PivotProgress) ∧
      (nextOf (step atSwap)).isSome = true :=
  ⟨⟨by decide, by decide, by decide⟩, by decide⟩

/-- The state before M_ELIM of column 0 in T2. -/
def atElim : State := inPhase .skip .elim 0 1 true [0b101, 0b110, 0b010] [2, 1, 4] [0b110, 0b101, 0b010]

theorem witness_steps_from_elim :
    (atElim.Wf ∧ atElim.AugmentedPair ∧ atElim.PivotProgress) ∧
      (nextOf (step atElim)).isSome = true :=
  ⟨⟨by decide, by decide, by decide⟩, by decide⟩

/-- The state before M_NEXT of column 0 in T2. -/
def atNext : State := inPhase .skip .next 0 1 true [0b101, 0b110, 0b010] [2, 1, 4] [0b110, 0b101, 0b010]

theorem witness_steps_from_next :
    (atNext.Wf ∧ atNext.AugmentedPair ∧ atNext.PivotProgress) ∧
      (nextOf (step atNext)).isSome = true :=
  ⟨⟨by decide, by decide, by decide⟩, by decide⟩

/-- The state before M_FIN in T2. -/
def atFin : State := inPhase .skip .fin 2 2 true [1, 2, 4] [7, 4, 5] [0b110, 0b101, 0b010]

theorem witness_steps_from_fin :
    (atFin.Wf ∧ atFin.AugmentedPair ∧ atFin.PivotProgress) ∧ atFin.inv = true ∧ (nextOf (step atFin)).isSome = true :=
  ⟨⟨by decide, by decide, by decide⟩, by decide, by decide⟩

/-- `INV` falls at an M_PIVOT without a pivot. -/
theorem witness_InvFlagIsStickyLow :
    after (step (inPhase .skip .pivot 1 0 true [0b011, 0b000, 0b100] [1, 3, 4] [0, 0, 0])) (fun t => (t.inv, t.found)) =
      some (false, false) := by decide

theorem witness_OnlySixStatusWordsOccur :
    after (step (inPhase .skip .fin 2 2 true [1, 2, 4] [7, 4, 5] [0, 0, 0])) (fun t => t.responses.map (·.sts)) =
      some [0x3] := by decide

theorem witness_EliminationOrderDoesNotMatter :
    (inPhase .skip .elim 2 2 true [0b101, 0b110, 0b100] [2, 1, 5] [0, 0, 0]).Wf ∧ [2, 0, 1].Perm (List.range 3) := by
  decide

theorem witness_inversion_of_an_invertible_input : initial.Wf ∧ initial.ph = .init ∧
    (invertRef initial.input 3 .skip).2 = true ∧ ([0xDE, 0xAD, 0xBE] : List Nat).length = initial.dim := by decide

/-- The input of the second inversion of P2. -/
theorem witness_InverseOfTheInverse :
    let s' := inPhase .skip .init 0 0 false [0, 0, 0] [0, 0, 0] [0b111, 0b100, 0b101]
    s'.Wf ∧ s'.ph = .init ∧ s'.dim = initial.dim ∧ s'.input = (invertRef initial.input 3 .skip).1 := by decide

theorem witness_SingularInputsAreDetected : initialSingular.Wf ∧ initialSingular.ph = .init ∧
    initialSingular.cmdr.strict = true ∧ ∀ m < 3, entry initialSingular.input 0 m = false := by decide

theorem witness_IdentityInvertsToItself :
    let s := inPhase .skip .init 0 0 false [0, 0, 0] [0, 0, 0] [1, 2, 4]
    s.Wf ∧ s.ph = .init ∧ s.input = identityGrid 3 := by decide

theorem witness_InvpCommandAnswersInvertRef :
    offersInvp.Wf ∧ offersInvp.Offers { cmd := 0x00000204, payload := [.row 0b11, .row 0b10] } [] ∧
    Dim.WellFormed offersInvp.cfg 2 := by decide

theorem witness_InvgCommandAnswersInvertRef :
    let g : Grid := [[true, true], [false, true]]
    (offering 0x00000213 (gridItems g)).Wf ∧ IsGrid 2 g ∧
    (decodeCommand 0x00000213).toOption = some (.invg 2 true) := by decide

theorem witness_PackedFlowIsTheComposition :
    (State.resetOf (small .skip)).Wf ∧ Dim.WellFormed (small .skip) 2 ∧
    ∀ r ∈ [0b111, 0b110], r < 2 ^ (small .skip).nMax := by decide

/-- Two idle blocks with different register contents and the same request on offer. -/
def offersInvpLater : State := { offersInvp with W := [1, 2, 3], C := [7, 6, 5], j := 9, inv := true }

theorem witness_ResponseIgnoresLeftoverState :
    offersInvp.Wf ∧ offersInvpLater.Wf ∧ offersInvp ≠ offersInvpLater ∧
      offersInvp.requests = offersInvpLater.requests :=
  ⟨by decide, by decide, by decide, by decide⟩

end Sys2Proof.Tests
end

/-! # What the next step is

The step from an offered request and from each busy phase, as equations, and one inversion of `step`. -/

namespace Sys2Proof.Machine

/-- The instruction that is the inversion `op` (30_encoding.md R71). -/
def InvOp.instr (op : InvOp) (n : Dim) (strict : Bool) : Instr :=
  match op with
  | .invg => .invg n strict
  | .invp => .invp n strict

/-- What acceptance admits of an inversion: a supported dimension and `n` items of the form the operation takes
(10_state.md R33, R42). -/
structure AdmitsInversion (c : Config) (op : InvOp) (n : Dim) (payload : List Item) : Prop where
  dimension : Dim.WellFormed c n
  length : payload.length = n.toNat
  items : ∀ it ∈ payload, itemLegal op n.toNat it = true

/-- The dimension and the outcome of the checks for a request, whatever the registers hold (10_state.md R42). -/
def offerVerdict (c : Config) (r : Request) : Dim × Verdict :=
  match decodeCommand r.cmd with
  | .ok (.unpack n) => (n, unpackVerdict c n r.payload)
  | .ok (.pack n) => (n, packVerdict c n r.payload)
  | .ok (.invg n strict) => (n, invgVerdict c n strict r.payload)
  | .ok (.invp n strict) => (n, invpVerdict c n strict r.payload)
  | _ => (0, .raise .illegalCommand)

/-- The state change of the phase's micro-operation. -/
def State.microStep (s : State) : State :=
  match s.ph with
  | .idle => s
  | .init => s.initStep
  | .pivot => s.pivotStep
  | .swap => s.swapStep
  | .elim => s.elimStep
  | .next => s.nextStep
  | .fin => s.finStep

/-! ## Decoding -/

theorem phaseOfCode_phaseCode (ph : Phase) : phaseOfCode (phaseCode ph) = some ph := by
  cases ph <;> rfl

theorem decodePhase_eq_ok_iff (c : PhaseCode) (i : Instr) :
    decodePhase c = .ok i ↔ (phaseOfCode c).bind microOpOf = some i := by
  unfold decodePhase
  cases (phaseOfCode c).bind microOpOf <;> simp

/-- No command word decodes to a micro-operation. -/
theorem decodeCommand_eq_ok {w : CmdWord} {i : Instr} (h : decodeCommand w = .ok i) :
    ∃ n strict, i = .unpack n ∨ i = .pack n ∨ i = .invg n strict ∨ i = .invp n strict := by
  refine ⟨cmdDim w, cmdStrict w, ?_⟩
  unfold decodeCommand at h
  split at h
  case isTrue => cases h
  case isFalse =>
    split at h
    case h_1 =>
      split at h <;> cases h
      exact .inl rfl
    case h_2 =>
      split at h <;> cases h
      exact .inr (.inl rfl)
    case h_3 =>
      cases h
      exact .inr (.inr (.inl rfl))
    case h_4 =>
      cases h
      exact .inr (.inr (.inr rfl))
    case h_5 => cases h

/-! ## Where M_PIVOT goes -/

theorem phaseAfterScan_cases (policy : SingPolicy) (found : Bool) :
    phaseAfterScan policy found = .swap ∨ phaseAfterScan policy found = .next ∨ phaseAfterScan policy found = .elim := by
  cases found <;> cases policy <;> decide

theorem phaseAfterScan_eq_swap_iff (policy : SingPolicy) (found : Bool) :
    phaseAfterScan policy found = .swap ↔ found = true := by
  cases found <;> cases policy <;> decide

theorem phaseAfterScan_ne_idle (policy : SingPolicy) (found : Bool) : phaseAfterScan policy found ≠ .idle := by
  obtain h | h | h := phaseAfterScan_cases policy found <;> simp [h]

theorem phaseAfterScan_ne_fin (policy : SingPolicy) (found : Bool) : phaseAfterScan policy found ≠ .fin := by
  obtain h | h | h := phaseAfterScan_cases policy found <;> simp [h]

/-! ## The step as equations -/

theorem step_of_microOp {s : State} {i : Instr} (h : microOpOf s.ph = some i) : step s = exec i s := by
  simp [step, fetch_of_microOp h]

theorem step_of_decodes {s : State} {r : Request} {rest : List Request} {i : Instr} (ho : s.Offers r rest)
    (hd : decodeCommand r.cmd = .ok i) : step s = exec i s := by
  obtain ⟨hi, hr⟩ := ho
  simp [step, fetch_of_idle hi, hr, hd]

theorem step_of_illegal {s : State} {r : Request} {rest : List Request} {e : DecodeError} (ho : s.Offers r rest)
    (hd : decodeCommand r.cmd = .error e) : step s = .next (s.raise .illegalCommand) := by
  obtain ⟨hi, hr⟩ := ho
  simp [step, fetch_of_idle hi, hr, hd]

theorem step_of_busy {s : State} (h : s.Busy) : step s = .next s.microStep := by
  have run : ∀ {ph : Phase} {i : Instr} {f : State → State}, s.ph = ph → microOpOf ph = some i →
      exec i s = whenPhase s ph f → step s = .next (f s) := by
    intro ph i f hp hm he
    rw [step_of_microOp (hp ▸ hm), he, whenPhase_of_eq f hp]
  unfold State.microStep
  split
  case h_1 hp => exact absurd hp h
  case h_2 hp => exact run hp rfl rfl
  case h_3 hp => exact run hp rfl rfl
  case h_4 hp => exact run hp rfl rfl
  case h_5 hp => exact run hp rfl rfl
  case h_6 hp => exact run hp rfl rfl
  case h_7 hp => exact run hp rfl rfl

/-- A command that decodes is accepted with `offerVerdict`'s dimension and checks. -/
theorem exec_eq_accept_offerVerdict {r : Request} {i : Instr} (hd : decodeCommand r.cmd = .ok i) (s : State) :
    ∃ verdict, exec i s = accept s (offerVerdict s.cfg r).1 verdict ∧
      verdict r.payload = (offerVerdict s.cfg r).2 := by
  obtain ⟨n, strict, rfl | rfl | rfl | rfl⟩ := decodeCommand_eq_ok hd
  · exact ⟨unpackVerdict s.cfg n, by simp only [offerVerdict, hd]; exact ⟨rfl, trivial⟩⟩
  · exact ⟨packVerdict s.cfg n, by simp only [offerVerdict, hd]; exact ⟨rfl, trivial⟩⟩
  · exact ⟨invgVerdict s.cfg n strict, by simp only [offerVerdict, hd]; exact ⟨rfl, trivial⟩⟩
  · exact ⟨invpVerdict s.cfg n strict, by simp only [offerVerdict, hd]; exact ⟨rfl, trivial⟩⟩

theorem offerVerdict_of_illegal {r : Request} {e : DecodeError} (c : Config) (hd : decodeCommand r.cmd = .error e) :
    offerVerdict c r = (0, .raise .illegalCommand) := by
  simp [offerVerdict, hd]

/-- The acceptance of a request that its type can hold (10_state.md R42). -/
theorem step_of_offer {s : State} {r : Request} {rest : List Request} (ho : s.Offers r rest)
    (hf : payloadFits s.cfg r.payload = true) :
    step s = .next (s.conclude (offerVerdict s.cfg r).1 r.payload (offerVerdict s.cfg r).2) := by
  cases hd : decodeCommand r.cmd with
  | error e => rw [step_of_illegal ho hd, offerVerdict_of_illegal s.cfg hd, State.conclude_raise]
  | ok i =>
    obtain ⟨verdict, he, hv⟩ := exec_eq_accept_offerVerdict hd s
    rw [step_of_decodes ho hd, he, accept_of_offer _ _ ho.1 ho.2 hf, hv]

/-- What the checks can decide of a request: an error, a codec result, or the start of an admitted inversion. -/
theorem offerVerdict_cases (c : Config) (r : Request) :
    (∃ e, (offerVerdict c r).2 = .raise e) ∨ (∃ out, (offerVerdict c r).2 = .done out) ∨
    ∃ op n strict, offerVerdict c r = (n, .start op strict) ∧ decodeCommand r.cmd = .ok (InvOp.instr op n strict) ∧
      AdmitsInversion c op n r.payload := by
  cases hd : decodeCommand r.cmd with
  | error e => exact .inl ⟨_, by rw [offerVerdict_of_illegal c hd]⟩
  | ok i =>
    obtain ⟨n, strict, rfl | rfl | rfl | rfl⟩ := decodeCommand_eq_ok hd <;> simp only [offerVerdict, hd]
    case inl =>
      obtain ⟨_, -, -, h⟩ | ⟨-, h⟩ := unpackVerdict_cases c n r.payload
      · exact .inr (.inl ⟨_, h⟩)
      · exact .inl ⟨_, h⟩
    case inr.inl =>
      obtain ⟨_, -, -, -, -, h⟩ | ⟨_, -, -, -, -, h⟩ | ⟨-, h⟩ := packVerdict_cases c n r.payload
      · exact .inr (.inl ⟨_, h⟩)
      · exact .inl ⟨_, h⟩
      · exact .inl ⟨_, h⟩
    case inr.inr.inl =>
      obtain ⟨hn, ⟨hl, hs⟩, hb, h⟩ | ⟨-, -, -, h⟩ | ⟨-, h⟩ := invgVerdict_cases c n strict r.payload
      · refine .inr (.inr ⟨.invg, n, strict, by rw [h], rfl, hn, hl, fun it hit => ?_⟩)
        rw [List.all_eq_true] at hs
        rw [List.any_eq_false] at hb
        simp [itemLegal, hs it hit, hb it hit]
      · exact .inl ⟨_, h⟩
      · exact .inl ⟨_, h⟩
    case inr.inr.inr =>
      obtain ⟨hn, ⟨hl, hs⟩, h⟩ | ⟨-, h⟩ := invpVerdict_cases c n strict r.payload
      · exact .inr (.inr ⟨.invp, n, strict, by rw [h], rfl, hn, hl, List.all_eq_true.1 hs⟩)
      · exact .inl ⟨_, h⟩

/-! ## The inversion of a step -/

/-- Everything one step can do, one constructor for each kind of step. -/
inductive StepsTo (s : State) : State → Prop
  | wait (idle : s.ph = .idle) (noOffer : s.requests = []) : StepsTo s s
  | answer {r : Request} {rest : List Request} (sts : StsWord) (payload : List Item) (offers : s.Offers r rest) :
      StepsTo s (s.takeRequest.respond sts payload)
  | start {r : Request} {rest : List Request} {op : InvOp} {n : Dim} {strict : Bool} (offers : s.Offers r rest)
      (fits : payloadFits s.cfg r.payload = true) (decodes : decodeCommand r.cmd = .ok (InvOp.instr op n strict))
      (admitted : AdmitsInversion s.cfg op n r.payload) :
      StepsTo s (s.takeRequest.latch op strict n r.payload)
  | init (phase : s.ph = .init) : StepsTo s s.initStep
  | pivot (phase : s.ph = .pivot) : StepsTo s s.pivotStep
  | swap (phase : s.ph = .swap) : StepsTo s s.swapStep
  | elim (phase : s.ph = .elim) : StepsTo s s.elimStep
  | next (phase : s.ph = .next) : StepsTo s s.nextStep
  | fin (phase : s.ph = .fin) : StepsTo s s.finStep

/-- The conclusion of acceptance is an answer or a start. -/
theorem stepsTo_conclude {s : State} {r : Request} {rest : List Request} (ho : s.Offers r rest)
    (hf : payloadFits s.cfg r.payload = true) :
    StepsTo s (s.conclude (offerVerdict s.cfg r).1 r.payload (offerVerdict s.cfg r).2) := by
  obtain ⟨e, h⟩ | ⟨out, h⟩ | ⟨op, n, strict, h, hd, ha⟩ := offerVerdict_cases s.cfg r
  · rw [h]
    exact .answer (stsError e) [] ho
  · rw [h]
    exact .answer stsOk out ho
  · rw [h]
    exact .start ho hf hd ha

theorem stepsTo_of_step {s t : State} (h : step s = .next t) : StepsTo s t := by
  obtain ⟨hi, hr, rfl⟩ | ⟨hi, ⟨r, rest, e, hr, -⟩, rfl⟩ | ⟨hi, r, rest, i, hr, hd, hx⟩ | ⟨hp, rfl⟩ | ⟨hp, rfl⟩ | ⟨hp, rfl⟩ |
    ⟨hp, rfl⟩ | ⟨hp, rfl⟩ | ⟨hp, rfl⟩ := step_cases h
  · exact .wait hi hr
  · exact .answer (stsError .illegalCommand) [] ⟨hi, hr⟩
  · obtain ⟨verdict, he, hv⟩ := exec_eq_accept_offerVerdict hd s
    obtain ⟨r', rest', -, hr', hf, rfl⟩ := accept_eq_next (he ▸ hx)
    obtain ⟨rfl, rfl⟩ := List.cons.inj (hr.symm.trans hr')
    rw [hv]
    exact stepsTo_conclude ⟨hi, hr⟩ hf
  · exact .init hp
  · exact .pivot hp
  · exact .swap hp
  · exact .elim hp
  · exact .next hp
  · exact .fin hp

end Sys2Proof.Machine

/-! # The fetch: the statements about `step` and `exec` -/

namespace Sys2Proof.Machine

theorem accept_of_no_offer {s : State} (n : Dim) (verdict : List Item → Verdict) (hi : s.ph = .idle)
    (hr : s.requests = []) : accept s n verdict = .fault .noRequest := by
  simp [accept, hi, hr]

/-- Settles O5: the fetch selects the decoded instruction in both kinds of phase. -/
theorem stepRunsDecodedInstruction : Obligations.StepRunsDecodedInstruction := by
  refine ⟨fun s r rest i ho hd => step_of_decodes ho hd, fun s i hd => step_of_microOp ?_⟩
  simpa [phaseOfCode_phaseCode] using (decodePhase_eq_ok_iff _ _).1 hd

theorem toOption_eq_some_iff {ε α : Type} {x : Except ε α} {a : α} : x.toOption = some a ↔ x = .ok a := by
  cases x <;> simp [Except.toOption]

/-- A placed phase code is the current phase. -/
theorem withFetchWord_of_phase {s : State} {nbits w : Nat} {ph : Phase} (hn : nbits ≤ 8) (hw : w < 8)
    (hp : phaseOfCode (BitVec.ofNat 3 w) = some ph) : s.withFetchWord nbits w = s.toPhase ph := by
  simp [State.withFetchWord, placeWord, hn, hw, hp]

/-- A placed command word is offered to the idle block. -/
theorem withFetchWord_offers {s : State} {nbits w : Nat} (hn : ¬ nbits ≤ 8) :
    ∃ payload, (s.withFetchWord nbits w).Offers { cmd := BitVec.ofNat 32 w, payload := payload } s.requests := by
  simp [State.withFetchWord, placeWord, hn]

/-- Settles O6: the placed phase code is the phase, and the placed command word is on offer in IDLE. -/
theorem placedWordIsRunNext : Obligations.PlacedWordIsRunNext := by
  intro s nbits w i h
  unfold decodeTableWord at h
  split at h
  case isTrue hn =>
    obtain ⟨hw, hd⟩ := Option.ite_none_right_eq_some.1 h
    obtain ⟨ph, hp, hm⟩ := Option.bind_eq_some_iff.1 ((decodePhase_eq_ok_iff _ _).1 (toOption_eq_some_iff.1 hd))
    rw [withFetchWord_of_phase hn hw hp]
    exact step_of_microOp hm
  case isFalse hn =>
    obtain ⟨-, hd⟩ := Option.ite_none_right_eq_some.1 h
    obtain ⟨payload, ho⟩ := withFetchWord_offers (s := s) (w := w) hn
    exact step_of_decodes ho (toOption_eq_some_iff.1 hd)

/-- Settles O9: a micro-operation is guarded by its phase, a command by IDLE and by a request on offer. -/
theorem nothingElseIsEnabled : Obligations.NothingElseIsEnabled := by
  constructor
  · intro s i hi hne
    have guard : ∀ {ph : Phase} (f : State → State), microOpOf ph = some i → whenPhase s ph f = .fault .notEnabled :=
      fun f hm => whenPhase_of_ne f fun hp => hne (hp ▸ hm)
    simp only [List.mem_cons, List.not_mem_nil, or_false] at hi
    obtain rfl | rfl | rfl | rfl | rfl | rfl := hi
    · exact guard State.initStep rfl
    · exact guard State.pivotStep rfl
    · exact guard State.swapStep rfl
    · exact guard State.elimStep rfl
    · exact guard State.nextStep rfl
    · exact guard State.finStep rfl
  · intro s n strict i hi
    have stops : ∀ verdict, exec i s = accept s n verdict →
        (s.ph ≠ .idle → exec i s = .fault .notEnabled) ∧
        (s.ph = .idle → s.requests = [] → exec i s = .fault .noRequest) := by
      intro verdict he
      rw [he]
      exact ⟨accept_of_not_idle n verdict, accept_of_no_offer n verdict⟩
    simp only [List.mem_cons, List.not_mem_nil, or_false] at hi
    obtain rfl | rfl | rfl | rfl := hi
    · exact stops (unpackVerdict s.cfg n) rfl
    · exact stops (packVerdict s.cfg n) rfl
    · exact stops (invgVerdict s.cfg n strict) rfl
    · exact stops (invpVerdict s.cfg n strict) rfl

end Sys2Proof.Machine

/-! # Frames of a step: the flag, the command, the messages -/

namespace Sys2Proof.Machine

/-- Settles O37: M_INIT sets `INV`, M_PIVOT takes its conjunction with `found`, no other step writes it. -/
theorem invFlagIsStickyLow : Obligations.InvFlagIsStickyLow := by
  intro s t h
  cases stepsTo_of_step h with
  | init hp => exact ⟨fun hl => absurd hp hl.2, fun _ => .inl hp⟩
  | pivot hp =>
    simp only [State.pivotStep_inv, State.pivotStep_found, invAfterScan, Bool.and_eq_true]
    refine ⟨fun _ hi => hi.1, fun hne => .inr ⟨hp, ?_⟩⟩
    cases hf : (findPivot s.W s.cmdr.n.toNat s.j.toNat).isSome with
    | true => simp [hf] at hne
    | false => simp
  | wait | answer | start | swap | elim | next | fin => simp

/-- Settles O38: only acceptance, which is not enabled while busy, writes `CMDR` and `IB`. -/
theorem commandIsConstantWhileBusy : Obligations.CommandIsConstantWhileBusy := by
  intro s t h
  cases stepsTo_of_step h with
  | start ho => exact ⟨rfl, fun hb => absurd ho.1 hb⟩
  | wait | answer | init | pivot | swap | elim | next | fin => simp

/-- Settles O40: a request leaves either as a response or as the command in progress, and M_FIN ends that one with its
response. -/
theorem oneResponsePerRequest : Obligations.OneResponsePerRequest := by
  intro s t h
  cases stepsTo_of_step h with
  | wait => simp
  | answer _ _ ho => simp [ho.1, ho.2]; omega
  | start ho => simp [ho.1, ho.2]; omega
  | init hp => simp [hp]
  | pivot hp => simp [hp, phaseAfterScan_ne_idle]
  | swap hp => simp [hp]
  | elim hp => simp [hp]
  | next hp =>
    simp only [hp, State.nextStep_ph]
    split <;> simp
  | fin hp => simp [hp]; omega

end Sys2Proof.Machine

/-! # What the invariant gives, and the rows of each store operation -/

namespace Sys2Proof.Machine

section Wf

variable {s : State}

theorem State.Wf.cfgWf (h : s.Wf) : s.cfg.WellFormed := h.1

theorem State.Wf.storesWf (h : s.Wf) : s.StoresWf := h.2.1

theorem State.Wf.commandWf (h : s.Wf) : s.CommandWf := h.2.2.1

theorem State.Wf.sequencerWf (h : s.Wf) : s.SequencerWf := h.2.2.2.1

theorem State.Wf.highBitsZero (h : s.Wf) : s.HighBitsZero := h.2.2.2.2.1

theorem State.Wf.requestsFit (h : s.Wf) : s.RequestsFit := h.2.2.2.2.2

theorem State.Wf.length_W (h : s.Wf) : s.W.length = s.cfg.nMax := by
  obtain ⟨hW, -⟩ := h.storesWf
  exact ((Memory.wf_iff _ _).1 hW).1

theorem State.Wf.length_C (h : s.Wf) : s.C.length = s.cfg.nMax := by
  obtain ⟨-, hC, -⟩ := h.storesWf
  exact ((Memory.wf_iff _ _).1 hC).1

theorem State.Wf.length_IB (h : s.Wf) : s.IB.length = s.cfg.nMax := by
  obtain ⟨-, -, hI, -⟩ := h.storesWf
  exact hI

theorem State.Wf.one_le_dim (h : s.Wf) (hb : s.Busy) : 1 ≤ s.dim := (h.commandWf hb).1.1

theorem State.Wf.dim_le (h : s.Wf) (hb : s.Busy) : s.dim ≤ s.cfg.nMax := (h.commandWf hb).1.2

theorem State.Wf.j_lt (h : s.Wf) (hl : s.Loaded) : s.j.toNat < s.dim := h.sequencerWf.1 hl

/-- At M_SWAP the pivot row is below the diagonal or on it, and has the pivot bit (10_state.md R30). -/
theorem State.Wf.pivot_row (h : s.Wf) (hp : s.ph = .swap) :
    s.j.toNat ≤ s.p.toNat ∧ s.p.toNat < s.dim ∧ readBit s.W s.p.toNat s.j.toNat = true := by
  obtain ⟨-, -, hs⟩ := h.sequencerWf
  exact hs hp

/-- Every item below the dimension is there and of the form the latched operation takes (10_state.md R33). -/
theorem State.Wf.item (h : s.Wf) (hb : s.Busy) {i : Nat} (hi : i < s.dim) :
    ∃ it, s.IB[i]? = some it ∧ itemLegal s.cmdr.op s.dim it = true := by
  have hlen : i < s.IB.length := by
    have := h.dim_le hb
    rw [h.length_IB]
    omega
  refine ⟨s.IB[i], List.getElem?_eq_getElem hlen, List.all_eq_true.1 (h.commandWf hb).2 _ ?_⟩
  exact List.mem_take_iff_getElem.2 ⟨i, by omega, rfl⟩

theorem State.Wf.lt_length (h : s.Wf) (hb : s.Busy) {i : Nat} (hi : i < s.dim) :
    i < s.W.length ∧ i < s.C.length := by
  have := h.dim_le hb
  rw [h.length_W, h.length_C]
  omega

theorem loaded_of_ph {ph : Phase} (hp : s.ph = ph) (hl : ph ≠ .idle ∧ ph ≠ .init) : s.Loaded := by
  rwa [State.Loaded, hp]

theorem busy_of_ph {ph : Phase} (hp : s.ph = ph) (hb : ph ≠ .idle) : s.Busy := by
  rwa [State.Busy, hp]

/-! ## The rows after each micro-operation that writes the stores -/

theorem State.Wf.readRow_initStep (h : s.Wf) (hp : s.ph = .init) {i : Nat} (hi : i < s.dim) :
    readRow s.initStep.W i = loadItem s.cmdr.op s.dim i s.IB[i]? ∧ readRow s.initStep.C i = 1 <<< i := by
  obtain ⟨hiW, hiC⟩ := h.lt_length (busy_of_ph hp (by decide)) hi
  rw [State.initStep_W, State.initStep_C, readRow_loadRows _ _ _ hiW, readRow_identityRows _ hiC, if_pos hi, if_pos hi]
  exact ⟨rfl, rfl⟩

/-- M_SWAP moves the rows of both stores by one exchange, within the dimension (41_inverter.md R103). -/
theorem State.Wf.readRow_swapStep (h : s.Wf) (hp : s.ph = .swap) {i : Nat} (hi : i < s.dim) :
    Equiv.swap s.p.toNat s.j.toNat i < s.dim ∧
      readRow s.swapStep.W i = readRow s.W (Equiv.swap s.p.toNat s.j.toNat i) ∧
      readRow s.swapStep.C i = readRow s.C (Equiv.swap s.p.toNat s.j.toNat i) := by
  have hb := busy_of_ph hp (by decide)
  have hj := h.j_lt (loaded_of_ph hp (by decide))
  obtain ⟨-, hpn, -⟩ := h.pivot_row hp
  obtain ⟨hjW, hjC⟩ := h.lt_length hb hj
  obtain ⟨hpW, hpC⟩ := h.lt_length hb hpn
  rw [State.swapStep_W, State.swapStep_C, readRow_swapRows hjW hpW, readRow_swapRows hjC hpC, Equiv.swap_apply_def]
  split
  · exact ⟨hj, rfl, rfl⟩
  · split
    · exact ⟨hpn, rfl, rfl⟩
    · exact ⟨hi, rfl, rfl⟩

/-- M_ELIM adds row `j` to the rows of `E` in both stores (41_inverter.md R104). -/
theorem State.Wf.readRow_elimStep (h : s.Wf) (hp : s.ph = .elim) {i : Nat} (hi : i < s.dim) :
    readRow s.elimStep.W i =
        (if inElimSet s.W s.dim s.j.toNat i then readRow s.W i ^^^ readRow s.W s.j.toNat else readRow s.W i) ∧
      readRow s.elimStep.C i =
        (if inElimSet s.W s.dim s.j.toNat i then readRow s.C i ^^^ readRow s.C s.j.toNat else readRow s.C i) := by
  obtain ⟨hiW, hiC⟩ := h.lt_length (busy_of_ph hp (by decide)) hi
  exact ⟨readRow_elimRows _ _ _ hiW, readRow_elimRows _ _ _ hiC⟩

end Wf

/-! ## Rows below the dimension -/

/-- The row M_INIT loads from an item of the latched operation's form is below `2^n` (10_state.md R23). -/
theorem loadItem_lt {op : InvOp} {n : Nat} {it : Item} (i : Nat) (h : itemLegal op n it = true) :
    loadItem op n i (some it) < 2 ^ n := by
  cases op <;> cases it <;> simp only [itemLegal, isSeqOf, isRow, asRow] at h
  case invg.cells cs => exact loadItem_cells_lt n i cs
  case invp.row r => exact loadItem_row_lt n i r
  all_goals simp at h

/-- The bits of that row are those of the item below `n` (41_inverter.md R101). -/
theorem loadItem_testBit {op : InvOp} {n : Nat} {it : Item} (i k : Nat) (h : itemLegal op n it = true) :
    (loadItem op n i (some it)).testBit k = (decide (k < n) && itemBit op k it) := by
  cases op <;> cases it <;> simp only [itemLegal, isSeqOf, isRow, asRow] at h
  case invg.cells cs => exact loadItem_cells_testBit n i cs k
  case invp.row r => exact loadItem_row_testBit n i r k
  all_goals simp at h

/-- M_PIVOT finds a row exactly where there is a candidate (41_inverter.md R102). -/
theorem findPivot_isSome_iff (rows : List Nat) (n j : Nat) :
    (findPivot rows n j).isSome = true ↔ ∃ i, j ≤ i ∧ i < n ∧ readBit rows i j = true := by
  rw [Option.isSome_iff_ne_none, ne_eq, findPivot_eq_none_iff]
  push Not
  simp

/-- A found pivot row is what the 16-bit register `p` holds. -/
theorem toNat_pivot {rows : List Nat} {n : Dim} {j i : Nat} (h : findPivot rows n.toNat j = some i) :
    (BitVec.ofNat 16 i).toNat = i := by
  obtain ⟨⟨-, hi, -⟩, -⟩ := (findPivot_eq_some_iff _ _ _ _).1 h
  have := n.isLt
  simp only [BitVec.toNat_ofNat]
  omega

/-- The column counter does not wrap below the dimension (41_inverter.md R109). -/
theorem toNat_add_one {j n : Dim} (h : j.toNat + 1 < n.toNat) : (j + 1).toNat = j.toNat + 1 := by
  bv_omega

theorem State.nextStep_of_lt {s : State} (h : s.j.toNat + 1 < s.dim) :
    s.nextStep = { s with j := s.j + 1, ph := .pivot } := by
  rw [State.nextStep, if_pos h]

theorem State.nextStep_of_not_lt {s : State} (h : ¬ s.j.toNat + 1 < s.dim) : s.nextStep = s.toPhase .fin := by
  rw [State.nextStep, if_neg h]

/-! ## Rows at and above the dimension -/

theorem loadRows_getElem?_of_le (op : InvOp) {n i : Nat} (ib : List Item) (rows : List Nat) (h : n ≤ i) :
    (loadRows op n ib rows)[i]? = rows[i]? := by
  simp [loadRows, Nat.not_lt.2 h]

theorem identityRows_getElem?_of_le {n i : Nat} (rows : List Nat) (h : n ≤ i) :
    (identityRows n rows)[i]? = rows[i]? := by
  simp [identityRows, Nat.not_lt.2 h]

theorem swapRows_getElem?_of_ne {j p i : Nat} (rows : List Nat) (hj : i ≠ j) (hp : i ≠ p) :
    (swapRows j p rows)[i]? = rows[i]? := by
  simp [swapRows, Ne.symm hj, Ne.symm hp]

theorem elimRows_getElem?_of_le {n i : Nat} (w : List Nat) (j : Nat) (rows : List Nat) (h : n ≤ i) :
    (elimRows w n j rows)[i]? = rows[i]? := by
  simp [elimRows, inElimSet, Nat.not_lt.2 h]

/-- Settles O39: every write of the sequencer is to a row below the dimension. -/
theorem rowsAboveTheDimensionAreUntouched : Obligations.RowsAboveTheDimensionAreUntouched := by
  intro s t hw h
  cases stepsTo_of_step h with
  | init hp =>
    exact ⟨fun hi => by simp [hi] at hp, fun _ i hi =>
      ⟨loadRows_getElem?_of_le _ _ _ hi, identityRows_getElem?_of_le _ hi⟩⟩
  | swap hp =>
    obtain ⟨-, hpn, -⟩ := hw.pivot_row hp
    have hjn := hw.j_lt (loaded_of_ph hp (by decide))
    exact ⟨fun hi => by simp [hi] at hp, fun _ i hi =>
      ⟨swapRows_getElem?_of_ne _ (by omega) (by omega), swapRows_getElem?_of_ne _ (by omega) (by omega)⟩⟩
  | elim hp =>
    exact ⟨fun hi => by simp [hi] at hp, fun _ i hi =>
      ⟨elimRows_getElem?_of_le _ _ _ hi, elimRows_getElem?_of_le _ _ _ hi⟩⟩
  | wait | answer | start | pivot | next | fin => simp

/-- Settles O36: the phase each state change writes, with M_PIVOT's two policies and M_NEXT's exact comparison. -/
theorem sequencerFollowsTheTable : Obligations.SequencerFollowsTheTable := by
  intro s t hw h
  cases stepsTo_of_step h with
  | wait hi hr => simp [hi, hr]
  | answer sts payload ho => simp [ho.1, ho.2]
  | @start r rest op n strict ho hf hd ha =>
    refine ⟨fun _ => ⟨rfl, by simp [ho.2], fun _ => ⟨r, rest, n, strict, ho.2, ?_⟩, .inl rfl⟩, by simp [ho.1]⟩
    cases op
    · exact .inl hd
    · exact .inr hd
  | init hp => simp [hp]
  | pivot hp =>
    refine ⟨by simp [hp], by simp [hp], fun _ => ⟨rfl, findPivot_isSome_iff _ _ _, fun hf => ?_, fun hf hs => ?_,
      fun hf hd => ?_⟩, by simp [hp]⟩
    · rw [State.pivotStep_found] at hf
      simp [hf, phaseAfterScan]
    · rw [State.pivotStep_found] at hf
      simp [hf, hs, phaseAfterScan]
    · rw [State.pivotStep_found] at hf
      simp [hf, hd, phaseAfterScan]
  | swap hp => simp [hp]
  | elim hp => simp [hp]
  | next hp =>
    refine ⟨by simp [hp], by simp [hp], by simp [hp], by simp [hp], by simp [hp], fun _ => ⟨fun hj => ?_, fun hj => ?_⟩,
      by simp [hp]⟩
    · rw [State.nextStep_of_lt hj]
      exact ⟨rfl, toNat_add_one hj⟩
    · rw [State.nextStep_of_not_lt (by omega)]
      exact ⟨rfl, rfl⟩
  | fin hp => simp [hp]

end Sys2Proof.Machine

/-! # The invariant of the block's states is kept

One lemma for each clause of `State.Wf`, by the kind of step. -/

namespace Sys2Proof.Machine

section Keeps

variable {s t : State}

theorem StepsTo.cfg_eq (h : StepsTo s t) : t.cfg = s.cfg := by
  cases h <;> simp

/-- The latched items of an admitted payload are those of the payload. -/
theorem latchItems_of_admits {c : Config} {op : InvOp} {n : Dim} {payload ib : List Item} {i : Nat}
    (ha : AdmitsInversion c op n payload) (hb : ib.length = c.nMax) (hi : i < n.toNat) :
    (latchItems n.toNat payload ib)[i]? = payload[i]? := by
  have hlen := ha.length
  have hdim := ha.dimension.2
  rw [latchItems_getElem?, List.getElem?_eq_getElem (show i < ib.length by omega),
    List.getElem?_eq_getElem (show i < payload.length by omega)]
  simp [hi]

theorem StepsTo.keeps_storesWf (hw : s.Wf) (h : StepsTo s t) : t.StoresWf := by
  obtain ⟨hW, hC, hI, hf⟩ := hw.storesWf
  cases h with
  | start ho hp hd ha =>
    exact ⟨hW, hC, by simpa using hI, payloadFits_latchItems _ hp hf⟩
  | init hp =>
    have hb := busy_of_ph hp (by decide)
    refine ⟨Memory.wf_loadRows _ _ _ hW fun i hi => ?_, Memory.wf_identityRows _ hC, hI, hf⟩
    obtain ⟨it, hit, hl⟩ := hw.item hb hi
    rw [hit]
    exact (loadItem_lt i hl).trans_le (Nat.pow_le_pow_right (by omega) (hw.dim_le hb))
  | swap hp =>
    have hb := busy_of_ph hp (by decide)
    obtain ⟨hjW, hjC⟩ := hw.lt_length hb (hw.j_lt (loaded_of_ph hp (by decide)))
    obtain ⟨hpW, hpC⟩ := hw.lt_length hb (hw.pivot_row hp).2.1
    exact ⟨Memory.wf_swapRows hW hjW hpW, Memory.wf_swapRows hC hjC hpC, hI, hf⟩
  | elim hp =>
    obtain ⟨hjW, hjC⟩ := hw.lt_length (busy_of_ph hp (by decide)) (hw.j_lt (loaded_of_ph hp (by decide)))
    exact ⟨Memory.wf_elimRows _ _ hW hjW, Memory.wf_elimRows _ _ hC hjC, hI, hf⟩
  | next hp => simpa [State.StoresWf] using ⟨hW, hC, hI, hf⟩
  | wait | answer | pivot | fin => exact ⟨hW, hC, hI, hf⟩

theorem StepsTo.keeps_commandWf (hw : s.Wf) (h : StepsTo s t) : t.CommandWf := by
  have kept : ∀ {u : State}, u.cfg = s.cfg → u.cmdr = s.cmdr → u.IB = s.IB → s.Busy → u.CommandWf := by
    intro u hc hm hi hb _
    rw [State.dim, hc, hm, hi]
    exact hw.commandWf hb
  cases h with
  | wait hi => exact fun hb => absurd hi hb
  | answer _ _ ho => exact fun hb => absurd ho.1 hb
  | start ho hp hd ha =>
    intro _
    refine ⟨ha.dimension, List.all_eq_true.2 fun it hit => ?_⟩
    obtain ⟨i, hi⟩ := List.mem_iff_getElem?.1 hit
    obtain ⟨hlt, hi⟩ := Option.ite_none_right_eq_some.1 (List.getElem?_take.symm.trans hi)
    rw [State.latch_IB, State.takeRequest_IB, latchItems_of_admits ha hw.length_IB hlt] at hi
    exact ha.items it (List.mem_of_getElem? hi)
  | init hp => exact kept rfl rfl rfl (busy_of_ph hp (by decide))
  | pivot hp => exact kept rfl rfl rfl (busy_of_ph hp (by decide))
  | swap hp => exact kept rfl rfl rfl (busy_of_ph hp (by decide))
  | elim hp => exact kept rfl rfl rfl (busy_of_ph hp (by decide))
  | next hp => exact kept (by simp) (by simp) (by simp) (busy_of_ph hp (by decide))
  | fin => exact fun hb => absurd rfl hb

/-- After M_PIVOT the register `p` names the row found, where there is one (10_state.md R30). -/
theorem pivotStep_row {s : State} (h : s.pivotStep.ph = .swap) :
    s.j.toNat ≤ s.pivotStep.p.toNat ∧ s.pivotStep.p.toNat < s.dim ∧
      readBit s.W s.pivotStep.p.toNat s.j.toNat = true := by
  rw [State.pivotStep_ph, phaseAfterScan_eq_swap_iff] at h
  obtain ⟨i, hi⟩ := Option.isSome_iff_exists.1 h
  obtain ⟨hrow, -⟩ := (findPivot_eq_some_iff _ _ _ _).1 hi
  simpa only [State.pivotStep_p, hi, Option.map_some, Option.getD_some, toNat_pivot hi] using hrow

theorem StepsTo.keeps_sequencerWf (hw : s.Wf) (h : StepsTo s t) : t.SequencerWf := by
  have idle : ∀ {u : State}, u.ph = .idle → u.SequencerWf := fun hi => by simp [State.SequencerWf, hi]
  cases h with
  | wait hi => exact idle hi
  | answer _ _ ho => exact idle ho.1
  | start => simp [State.SequencerWf]
  | init hp => exact ⟨fun _ => hw.one_le_dim (busy_of_ph hp (by decide)), by simp, by simp⟩
  | pivot hp =>
    exact ⟨fun _ => hw.j_lt (loaded_of_ph hp (by decide)), fun hf => absurd hf (phaseAfterScan_ne_fin _ _), pivotStep_row⟩
  | swap hp => exact ⟨fun _ => hw.j_lt (loaded_of_ph hp (by decide)), by simp, by simp⟩
  | elim hp => exact ⟨fun _ => hw.j_lt (loaded_of_ph hp (by decide)), by simp, by simp⟩
  | next hp =>
    have hj := hw.j_lt (loaded_of_ph hp (by decide))
    by_cases hc : s.j.toNat + 1 < s.dim
    · rw [State.nextStep_of_lt hc]
      exact ⟨fun _ => (toNat_add_one hc).trans_lt hc, by simp, by simp⟩
    · rw [State.nextStep_of_not_lt hc]
      exact ⟨fun _ => hj, fun _ => le_antisymm hj (Nat.not_lt.1 hc), by simp⟩
  | fin => exact idle rfl

theorem StepsTo.keeps_highBitsZero (hw : s.Wf) (h : StepsTo s t) : t.HighBitsZero := by
  have hz := hw.highBitsZero
  cases h with
  | wait | answer => exact hz
  | start => exact fun hl => absurd rfl hl.2
  | init hp =>
    intro _ i (hi : i < s.dim)
    obtain ⟨it, hit, hl⟩ := hw.item (busy_of_ph hp (by decide)) hi
    obtain ⟨hW, hC⟩ := hw.readRow_initStep hp hi
    rw [hW, hC, hit, Nat.one_shiftLeft]
    exact ⟨loadItem_lt i hl, Nat.pow_lt_pow_right (by omega) hi⟩
  | pivot hp => exact fun _ => hz (loaded_of_ph hp (by decide))
  | swap hp =>
    intro _ i hi
    obtain ⟨hm, hW, hC⟩ := hw.readRow_swapStep hp hi
    rw [hW, hC]
    exact hz (loaded_of_ph hp (by decide)) _ hm
  | elim hp =>
    intro _ i hi
    have hl := loaded_of_ph hp (by decide)
    obtain ⟨hjW, hjC⟩ := hz hl _ (hw.j_lt hl)
    obtain ⟨hiW, hiC⟩ := hz hl i hi
    obtain ⟨hW, hC⟩ := hw.readRow_elimStep hp hi
    rw [hW, hC]
    split
    · exact ⟨Nat.xor_lt_two_pow hiW hjW, Nat.xor_lt_two_pow hiC hjC⟩
    · exact ⟨hiW, hiC⟩
  | next hp =>
    intro _ i hi
    simp only [State.dim, State.nextStep_W, State.nextStep_C, State.nextStep_cmdr] at hi ⊢
    exact hz (loaded_of_ph hp (by decide)) i hi
  | fin => exact fun hl => absurd rfl hl.1

theorem StepsTo.keeps_requestsFit (hw : s.Wf) (h : StepsTo s t) : t.RequestsFit := by
  have hsub : ∀ r ∈ t.requests, r ∈ s.requests := by
    cases h with
    | answer | start => exact fun r hr => List.mem_of_mem_tail hr
    | next => simp
    | wait | init | pivot | swap | elim | fin => exact fun r hr => hr
  intro r hr
  rw [h.cfg_eq]
  exact hw.requestsFit r (hsub r hr)

theorem StepsTo.keeps_wf (hw : s.Wf) (h : StepsTo s t) : t.Wf :=
  ⟨by rw [h.cfg_eq]; exact hw.cfgWf, h.keeps_storesWf hw, h.keeps_commandWf hw, h.keeps_sequencerWf hw,
    h.keeps_highBitsZero hw, h.keeps_requestsFit hw⟩

end Keeps

/-- Settles O31, clause by clause of the invariant. -/
theorem stepKeepsStateWellFormed : Obligations.StepKeepsStateWellFormed :=
  fun _ _ hw h => (stepsTo_of_step h).keeps_wf hw

end Sys2Proof.Machine

/-! # The augmented pair

A row of `C` times the input grid is the same row of `W`: the product of 10_state.md R24 row by row, which M_SWAP permutes
and M_ELIM adds. -/

namespace Sys2Proof.Machine

/-! ## Parity -/

@[simp] theorem parity_nil : parity [] = false := rfl

@[simp] theorem parity_cons (b : Bool) (bs : List Bool) : parity (b :: bs) = xor b (parity bs) := rfl

theorem parity_append (as bs : List Bool) : parity (as ++ bs) = xor (parity as) (parity bs) := by
  induction as with
  | nil => simp
  | cons a as ih => simp [ih]

theorem parity_map_xor {α : Type} (f g : α → Bool) (l : List α) :
    parity (l.map fun m => xor (f m) (g m)) = xor (parity (l.map f)) (parity (l.map g)) := by
  induction l with
  | nil => rfl
  | cons a l ih =>
    simp only [List.map_cons, parity_cons, ih, Bool.xor_assoc, Bool.xor_left_comm]

/-- A sum with one term left is that term. -/
theorem parity_map_single (f : Nat → Bool) (i n : Nat) :
    parity ((List.range n).map fun m => decide (i = m) && f m) = (decide (i < n) && f i) := by
  induction n with
  | zero => simp
  | succ n ih =>
    rw [List.range_succ, List.map_append, parity_append, ih]
    obtain h | rfl | h := lt_trichotomy i n
    · simp [h, h.ne, h.trans (Nat.lt_succ_self n)]
    · simp
    · simp [h.ne', Nat.lt_asymm h, Nat.not_lt.2 (Nat.succ_le_of_lt h)]

/-! ## Grids -/

theorem entry_gridOf {n i k : Nat} (f : Nat → Nat → Bool) (hi : i < n) (hk : k < n) : entry (gridOf n f) i k = f i k := by
  simp [entry, gridRow, gridOf, hi, hk]

theorem gridOf_eq_iff (n : Nat) (f g : Nat → Nat → Bool) :
    gridOf n f = gridOf n g ↔ ∀ i < n, ∀ k < n, f i k = g i k := by
  simp [gridOf, List.map_inj_left]

/-- Column `k` of a packed row times a grid. -/
def rowTimes (n r : Nat) (g : Grid) (k : Nat) : Bool :=
  parity ((List.range n).map fun m => r.testBit m && entry g m k)

theorem rowTimes_xor (n a b : Nat) (g : Grid) (k : Nat) :
    rowTimes n (a ^^^ b) g k = xor (rowTimes n a g k) (rowTimes n b g k) := by
  simp only [rowTimes, Nat.testBit_xor, Bool.and_xor_distrib_right, parity_map_xor]

/-- A row of the identity selects a row of the grid. -/
theorem rowTimes_one_shiftLeft {n i : Nat} (g : Grid) (k : Nat) (hi : i < n) :
    rowTimes n (1 <<< i) g k = entry g i k := by
  simp only [rowTimes, Nat.one_shiftLeft, Nat.testBit_two_pow, parity_map_single, hi, decide_true, Bool.true_and]

/-- `C × g = W` on the two stores, row by row. -/
theorem matMul_storeGrid_eq_iff (n : Nat) (comp w : List Nat) (g : Grid) :
    matMul n (storeGrid n comp) g = storeGrid n w ↔
      ∀ i < n, ∀ k < n, rowTimes n (readRow comp i) g k = (readRow w i).testBit k := by
  have product : ∀ i < n, ∀ k, parity ((List.range n).map fun m => entry (storeGrid n comp) i m && entry g m k) =
      rowTimes n (readRow comp i) g k := by
    intro i hi k
    rw [rowTimes]
    congr 1
    refine List.map_congr_left fun m hm => ?_
    rw [storeGrid, entry_gridOf _ hi (List.mem_range.1 hm), readBit]
  rw [matMul, storeGrid.eq_def n w, gridOf_eq_iff]
  exact forall₂_congr fun i hi => forall₂_congr fun k _ => by rw [product i hi k, readBit]

theorem State.input_congr {s t : State} (hm : t.cmdr = s.cmdr) (hI : t.IB = s.IB) : t.input = s.input := by
  rw [State.input, State.input, State.dim, hm, hI]

/-! ## The invariant -/

/-- Row `i` of `C` times the input is row `i` of `W` (10_state.md R24). -/
def State.PairRow (s : State) (i : Nat) : Prop :=
  ∀ k < s.dim, rowTimes s.dim (readRow s.C i) s.input k = (readRow s.W i).testBit k

theorem State.augmentedPair_iff (s : State) : s.AugmentedPair ↔ (s.Loaded → ∀ i < s.dim, s.PairRow i) := by
  rw [State.AugmentedPair, matMul_storeGrid_eq_iff]
  rfl

/-- The rows M_INIT loads are those of the input (41_inverter.md R101). -/
theorem State.Wf.testBit_loadItem {s : State} (hw : s.Wf) (hb : s.Busy) {i k : Nat} (hi : i < s.dim) (hk : k < s.dim) :
    (loadItem s.cmdr.op s.dim i s.IB[i]?).testBit k = entry s.input i k := by
  obtain ⟨it, hit, hl⟩ := hw.item hb hi
  rw [State.input, inputGrid, entry_gridOf _ hi hk, hit, loadItem_testBit i k hl]
  simp [hk]

section Rows

variable {s : State} (hw : s.Wf)
include hw

theorem pairRow_initStep (hp : s.ph = .init) {i : Nat} (hi : i < s.dim) : s.initStep.PairRow i := by
  intro k hk
  obtain ⟨hW, hC⟩ := hw.readRow_initStep hp hi
  rw [hW, hC]
  exact (rowTimes_one_shiftLeft _ k hi).trans (hw.testBit_loadItem (busy_of_ph hp (by decide)) hi hk).symm

theorem pairRow_swapStep (hp : s.ph = .swap) (hr : ∀ i < s.dim, s.PairRow i) {i : Nat} (hi : i < s.dim) :
    s.swapStep.PairRow i := by
  intro k hk
  obtain ⟨hm, hW, hC⟩ := hw.readRow_swapStep hp hi
  rw [hW, hC]
  exact hr _ hm k hk

theorem pairRow_elimStep (hp : s.ph = .elim) (hr : ∀ i < s.dim, s.PairRow i) {i : Nat} (hi : i < s.dim) :
    s.elimStep.PairRow i := by
  intro k hk
  obtain ⟨hW, hC⟩ := hw.readRow_elimStep hp hi
  rw [hW, hC]
  split
  · rw [rowTimes_xor, Nat.testBit_xor]
    exact congrArg₂ xor (hr i hi k hk) (hr _ (hw.j_lt (loaded_of_ph hp (by decide))) k hk)
  · exact hr i hi k hk

theorem StepsTo.keeps_augmentedPair {t : State} (ha : s.AugmentedPair) (h : StepsTo s t) : t.AugmentedPair := by
  cases h with
  | wait | answer => exact ha
  | start => exact fun hl => absurd rfl hl.2
  | init hp => exact (State.augmentedPair_iff _).2 fun _ _ hi => pairRow_initStep hw hp hi
  | pivot hp => exact fun _ => ha (loaded_of_ph hp (by decide))
  | swap hp =>
    have hr := (State.augmentedPair_iff s).1 ha (loaded_of_ph hp (by decide))
    exact (State.augmentedPair_iff _).2 fun _ _ hi => pairRow_swapStep hw hp hr hi
  | elim hp =>
    have hr := (State.augmentedPair_iff s).1 ha (loaded_of_ph hp (by decide))
    exact (State.augmentedPair_iff _).2 fun _ _ hi => pairRow_elimStep hw hp hr hi
  | next hp =>
    intro _
    rw [State.input_congr (s := s) (by simp) (by simp), State.dim, State.nextStep_cmdr, State.nextStep_C, State.nextStep_W]
    exact ha (loaded_of_ph hp (by decide))
  | fin => exact fun hl => absurd rfl hl.1

end Rows

/-- Settles O33: M_INIT makes the pair, M_SWAP permutes its rows, M_ELIM adds one row to others on both sides. -/
theorem stepKeepsAugmentedPair : Obligations.StepKeepsAugmentedPair :=
  fun _ _ hw ha h => (stepsTo_of_step h).keeps_augmentedPair hw ha

end Sys2Proof.Machine

/-! # What the registers held does not matter

Two blocks whose registers agree on what the command in progress reads go on in step and give the same response. -/

namespace Sys2Proof.Machine

/-! ## Runs -/

theorem runFor_succ_of_step {s t : State} (h : step s = .next t) (k : Nat) : runFor (k + 1) s = runFor k t := by
  simp [runFor, h, nextOf]

/-- Both blocks run to IDLE in the same number of steps, with `rest` and `rest'` still on offer, and add the same
response. -/
def AnswerAlike (s s' : State) (rest rest' : List Request) : Prop :=
  ∃ k t t' response, runFor k s = some t ∧ runFor k s' = some t' ∧ t.ph = .idle ∧ t'.ph = .idle ∧
    t.requests = rest ∧ t'.requests = rest' ∧
    t.responses = s.responses ++ [response] ∧ t'.responses = s'.responses ++ [response]

/-- A pair of steps that add no response may come first. -/
theorem AnswerAlike.of_step {s s' u u' : State} {rest rest' : List Request} (h : step s = .next u) (h' : step s' = .next u')
    (hr : u.responses = s.responses) (hr' : u'.responses = s'.responses) (ha : AnswerAlike u u' rest rest') :
    AnswerAlike s s' rest rest' := by
  obtain ⟨k, t, t', response, hk, hk', hi, hi', hq, hq', hp, hp'⟩ := ha
  exact ⟨k + 1, t, t', response, by rw [runFor_succ_of_step h, hk], by rw [runFor_succ_of_step h', hk'], hi, hi', hq, hq',
    hr ▸ hp, hr' ▸ hp'⟩

/-- A pair of steps to IDLE that add the same response. -/
theorem AnswerAlike.of_last_step {s s' t t' : State} {response : Response} (h : step s = .next t) (h' : step s' = .next t')
    (hi : t.ph = .idle) (hi' : t'.ph = .idle) (hr : t.responses = s.responses ++ [response])
    (hr' : t'.responses = s'.responses ++ [response]) : AnswerAlike s s' t.requests t'.requests :=
  ⟨1, t, t', response, by rw [runFor_succ_of_step h]; rfl, by rw [runFor_succ_of_step h']; rfl, hi, hi', rfl, rfl, hr, hr'⟩

/-- A bound on the micro-operations still to come: four for each column left, less those of the column done
(41_inverter.md R117). -/
def State.stepsLeft (s : State) : Nat :=
  match s.ph with
  | .idle => 0
  | .init => 4 * s.dim + 4
  | .pivot => 4 * (s.dim - s.j.toNat) + 3
  | .swap => 4 * (s.dim - s.j.toNat) + 2
  | .elim => 4 * (s.dim - s.j.toNat) + 1
  | .next => 4 * (s.dim - s.j.toNat)
  | .fin => 1

/-! ## Registers that agree -/

/-- The registers agree on what the command in progress still reads (10_state.md R34). -/
structure Agree (s s' : State) : Prop where
  cfg : s.cfg = s'.cfg
  ph : s.ph = s'.ph
  cmdr : s.cmdr = s'.cmdr
  items : ∀ i < s.dim, s.IB[i]? = s'.IB[i]?
  flags : s.Loaded → s.j = s'.j ∧ s.inv = s'.inv
  rows : s.Loaded → ∀ i < s.dim, readRow s.W i = readRow s'.W i ∧ readRow s.C i = readRow s'.C i
  pivot : s.ph = .swap → s.p = s'.p

/-- The pivot search reads rows below `n` alone. -/
theorem findPivot_congr {w w' : List Nat} {n : Nat} (j : Nat) (h : ∀ i < n, readRow w i = readRow w' i) :
    findPivot w n j = findPivot w' n j := by
  unfold findPivot
  refine List.find?_congr fun i hi => ?_
  rw [readBit, readBit, h i (List.mem_range.1 hi)]

/-- The response reads rows of `C` below `n` alone. -/
theorem inversionResponse_congr {comp comp' : List Nat} {n : Nat} (op : InvOp) (strict inv : Bool)
    (h : ∀ i < n, readRow comp i = readRow comp' i) :
    inversionResponse op strict inv n comp = inversionResponse op strict inv n comp' := by
  have hp : ((List.range n).map fun i => storeItem op n (readRow comp i)) =
      (List.range n).map fun i => storeItem op n (readRow comp' i) :=
    List.map_congr_left fun i hi => by rw [h i (List.mem_range.1 hi)]
  rw [inversionResponse, inversionResponse, hp]

section InStep

variable {s s' : State} (hw : s.Wf) (hw' : s'.Wf) (ha : Agree s s')
include ha

theorem Agree.dim : s.dim = s'.dim := by
  rw [State.dim, State.dim, ha.cmdr]

theorem Agree.pivotStep (hp : s.ph = .pivot) : Agree s.pivotStep s'.pivotStep := by
  have hl := loaded_of_ph hp (by decide)
  obtain ⟨hj, hi⟩ := ha.flags hl
  have hf : findPivot s.W s.dim s.j.toNat = findPivot s'.W s'.dim s'.j.toNat := by
    rw [← ha.dim, ← hj]
    exact findPivot_congr _ fun i h => (ha.rows hl i h).1
  refine ⟨ha.cfg, ?_, ha.cmdr, ha.items, fun _ => ⟨hj, ?_⟩, fun _ => ha.rows hl, fun hs => ?_⟩
  · rw [State.pivotStep_ph, State.pivotStep_ph, ha.cfg, hf]
  · rw [State.pivotStep_inv, State.pivotStep_inv, hi, hf]
  · rw [State.pivotStep_ph, phaseAfterScan_eq_swap_iff] at hs
    obtain ⟨i, h⟩ := Option.isSome_iff_exists.1 hs
    rw [State.pivotStep_p, State.pivotStep_p, ← hf, h]
    rfl

theorem Agree.nextStep (hp : s.ph = .next) : Agree s.nextStep s'.nextStep := by
  have hl := loaded_of_ph hp (by decide)
  obtain ⟨hj, hi⟩ := ha.flags hl
  by_cases hc : s.j.toNat + 1 < s.dim
  · rw [State.nextStep_of_lt hc, State.nextStep_of_lt (by rwa [← hj, ← ha.dim])]
    exact ⟨ha.cfg, rfl, ha.cmdr, ha.items, fun _ => ⟨by rw [hj], hi⟩, fun _ => ha.rows hl, nofun⟩
  · rw [State.nextStep_of_not_lt hc, State.nextStep_of_not_lt (by rwa [← hj, ← ha.dim])]
    exact ⟨ha.cfg, rfl, ha.cmdr, ha.items, fun _ => ⟨hj, hi⟩, fun _ => ha.rows hl, nofun⟩

include hw hw'

theorem Agree.initStep (hp : s.ph = .init) : Agree s.initStep s'.initStep := by
  refine ⟨ha.cfg, rfl, ha.cmdr, ha.items, fun _ => ⟨rfl, rfl⟩, fun _ i (hi : i < s.dim) => ?_, nofun⟩
  obtain ⟨hW, hC⟩ := hw.readRow_initStep hp hi
  obtain ⟨hW', hC'⟩ := hw'.readRow_initStep (ha.ph ▸ hp) (ha.dim ▸ hi)
  rw [hW, hC, hW', hC', ← ha.dim, ← ha.cmdr, ← ha.items i hi]
  exact ⟨rfl, rfl⟩

theorem Agree.swapStep (hp : s.ph = .swap) : Agree s.swapStep s'.swapStep := by
  have hl := loaded_of_ph hp (by decide)
  obtain ⟨hj, hi⟩ := ha.flags hl
  refine ⟨ha.cfg, rfl, ha.cmdr, ha.items, fun _ => ⟨hj, hi⟩, fun _ i (hi : i < s.dim) => ?_, nofun⟩
  obtain ⟨hm, hW, hC⟩ := hw.readRow_swapStep hp hi
  obtain ⟨-, hW', hC'⟩ := hw'.readRow_swapStep (ha.ph ▸ hp) (ha.dim ▸ hi)
  rw [hW, hC, hW', hC', ← hj, ← ha.pivot hp]
  exact ha.rows hl _ hm

theorem Agree.elimStep (hp : s.ph = .elim) : Agree s.elimStep s'.elimStep := by
  have hl := loaded_of_ph hp (by decide)
  obtain ⟨hj, hi⟩ := ha.flags hl
  obtain ⟨hjW, hjC⟩ := ha.rows hl _ (hw.j_lt hl)
  refine ⟨ha.cfg, rfl, ha.cmdr, ha.items, fun _ => ⟨hj, hi⟩, fun _ i (hi : i < s.dim) => ?_, nofun⟩
  obtain ⟨hiW, hiC⟩ := ha.rows hl i hi
  obtain ⟨hW, hC⟩ := hw.readRow_elimStep hp hi
  obtain ⟨hW', hC'⟩ := hw'.readRow_elimStep (ha.ph ▸ hp) (ha.dim ▸ hi)
  have hE : inElimSet s.W s.dim s.j.toNat i = inElimSet s'.W s.dim s.j.toNat i := by
    rw [inElimSet, inElimSet, readBit, readBit, hiW]
  rw [hW, hC, hW', hC', ← ha.dim, ← hj, hE, hiW, hiC, hjW, hjC]
  exact ⟨rfl, rfl⟩

theorem Agree.microStep (hb : s.Busy) (hf : s.ph ≠ .fin) : Agree s.microStep s'.microStep := by
  rw [State.microStep, State.microStep, ← ha.ph]
  cases hp : s.ph with
  | idle => exact absurd hp hb
  | init => exact ha.initStep hw hw' hp
  | pivot => exact ha.pivotStep hp
  | swap => exact ha.swapStep hw hw' hp
  | elim => exact ha.elimStep hw hw' hp
  | next => exact ha.nextStep hp
  | fin => exact absurd hp hf

end InStep

/-! ## The command in progress -/

/-- Before M_FIN a micro-operation answers nothing, stays busy and comes nearer to the end. -/
theorem microStep_goes_on {s : State} (hw : s.Wf) (hb : s.Busy) (hf : s.ph ≠ .fin) :
    s.microStep.requests = s.requests ∧ s.microStep.responses = s.responses ∧ s.microStep.Busy ∧
      s.microStep.stepsLeft < s.stepsLeft := by
  rw [State.microStep, State.stepsLeft.eq_def s]
  cases hp : s.ph with
  | idle => exact absurd hp hb
  | init => exact ⟨rfl, rfl, nofun, Nat.lt_succ_self (4 * s.dim + 3)⟩
  | pivot =>
    refine ⟨rfl, rfl, phaseAfterScan_ne_idle _ _, ?_⟩
    rw [State.stepsLeft, State.pivotStep_ph, State.dim, State.pivotStep_cmdr, State.pivotStep_j]
    obtain h | h | h := phaseAfterScan_cases s.cfg.policy (findPivot s.W s.cmdr.n.toNat s.j.toNat).isSome <;> simp [h]
  | swap => exact ⟨rfl, rfl, nofun, Nat.lt_succ_self (4 * (s.dim - s.j.toNat) + 1)⟩
  | elim => exact ⟨rfl, rfl, nofun, Nat.lt_succ_self (4 * (s.dim - s.j.toNat))⟩
  | next =>
    have hj := hw.j_lt (loaded_of_ph hp (by decide))
    by_cases hc : s.j.toNat + 1 < s.dim
    · refine ⟨by simp, by simp, by simp [State.nextStep_of_lt hc], ?_⟩
      rw [State.nextStep_of_lt hc]
      simp only [State.stepsLeft, State.dim, toNat_add_one hc] at hc ⊢
      omega
    · refine ⟨by simp, by simp, by simp [State.nextStep_of_not_lt hc], ?_⟩
      rw [State.nextStep_of_not_lt hc]
      simp only [State.stepsLeft, State.toPhase_ph]
      omega
  | fin => exact absurd hp hf

/-- Two busy blocks that agree give the same response. -/
theorem Agree.answerAlike {s s' : State} (hw : s.Wf) (hw' : s'.Wf) (ha : Agree s s') (hb : s.Busy) :
    AnswerAlike s s' s.requests s'.requests := by
  have hb' : s'.Busy := by rwa [State.Busy, ← ha.ph]
  have hs := step_of_busy hb
  have hs' := step_of_busy hb'
  by_cases hf : s.ph = .fin
  · have hl := loaded_of_ph hf (by decide)
    have hm : s.microStep = s.finStep := by rw [State.microStep, hf]
    have hm' : s'.microStep = s'.finStep := by rw [State.microStep, ← ha.ph, hf]
    rw [hm] at hs
    rw [hm'] at hs'
    refine AnswerAlike.of_last_step (t := s.finStep) (t' := s'.finStep) hs hs' rfl rfl rfl ?_
    rw [State.finStep_responses, ← ha.cmdr, ← (ha.flags hl).2,
      inversionResponse_congr _ _ _ fun i hi => (ha.rows hl i hi).2]
  · obtain ⟨hq, hr, hbu, hlt⟩ := microStep_goes_on hw hb hf
    obtain ⟨hq', hr', -, -⟩ := microStep_goes_on hw' hb' (ha.ph ▸ hf)
    have ih := Agree.answerAlike ((stepsTo_of_step hs).keeps_wf hw) ((stepsTo_of_step hs').keeps_wf hw')
      (ha.microStep hw hw' hb hf) hbu
    rw [hq, hq'] at ih
    exact ih.of_step hs hs' hr hr'
termination_by s.stepsLeft

/-! ## From the offer -/

/-- The same admitted payload makes two blocks agree, whatever they held. -/
theorem agree_latch {s s' : State} {op : InvOp} {n : Dim} {payload : List Item} (strict : Bool) (hw : s.Wf) (hw' : s'.Wf)
    (hc : s.cfg = s'.cfg) (ha : AdmitsInversion s.cfg op n payload) :
    Agree (s.takeRequest.latch op strict n payload) (s'.takeRequest.latch op strict n payload) := by
  refine ⟨hc, rfl, rfl, fun i (hi : i < n.toNat) => ?_, fun hl => absurd rfl hl.2, fun hl => absurd rfl hl.2, nofun⟩
  exact (latchItems_of_admits ha hw.length_IB hi).trans (latchItems_of_admits (hc ▸ ha) hw'.length_IB hi).symm

/-- Settles O49: the checks read the request and the parameters, and an admitted inversion goes on in step. -/
theorem responseIgnoresLeftoverState : Obligations.ResponseIgnoresLeftoverState := by
  intro s s' r rest rest' hw hw' hc ho ho'
  change AnswerAlike s s' rest rest'
  have hf := hw.requestsFit r (by simp [ho.2])
  have hs := step_of_offer ho hf
  have hs' := step_of_offer ho' (hc ▸ hf)
  rw [← hc] at hs'
  obtain ⟨e, hv⟩ | ⟨out, hv⟩ | ⟨op, n, strict, hv, -, ha⟩ := offerVerdict_cases s.cfg r
  · rw [hv] at hs hs'
    simpa [ho.2, ho'.2] using AnswerAlike.of_last_step hs hs' ho.1 ho'.1 rfl rfl
  · rw [hv] at hs hs'
    simpa [ho.2, ho'.2] using AnswerAlike.of_last_step hs hs' ho.1 ho'.1 rfl rfl
  · rw [hv] at hs hs'
    have alike := (agree_latch strict hw hw' hc ha).answerAlike ((stepsTo_of_step hs).keeps_wf hw)
      ((stepsTo_of_step hs').keeps_wf hw') nofun
    simpa [ho.2, ho'.2] using alike.of_step hs hs' rfl rfl

end Sys2Proof.Machine

/-! # The encoding of a command and back

The decoder's four legal words, each word put together again from its fields, and from the two the decoder read
arithmetically. -/

namespace Sys2Proof

/-! ## Decoding the four commands -/

theorem decodeCommand_unpack (n : Dim) : decodeCommand (commandWord 1 false n) = .ok (.unpack n) := by
  simp [decodeCommand, cmdOp_commandWord, cmdStrict_commandWord, cmdRsv0_commandWord, cmdDim_commandWord,
    cmdRsv1_commandWord]

theorem decodeCommand_pack (n : Dim) : decodeCommand (commandWord 2 false n) = .ok (.pack n) := by
  simp [decodeCommand, cmdOp_commandWord, cmdStrict_commandWord, cmdRsv0_commandWord, cmdDim_commandWord,
    cmdRsv1_commandWord]

theorem decodeCommand_invg (n : Dim) (strict : Bool) :
    decodeCommand (commandWord 3 strict n) = .ok (.invg n strict) := by
  simp [decodeCommand, cmdOp_commandWord, cmdStrict_commandWord, cmdRsv0_commandWord, cmdDim_commandWord,
    cmdRsv1_commandWord]

theorem decodeCommand_invp (n : Dim) (strict : Bool) :
    decodeCommand (commandWord 4 strict n) = .ok (.invp n strict) := by
  simp [decodeCommand, cmdOp_commandWord, cmdStrict_commandWord, cmdRsv0_commandWord, cmdDim_commandWord,
    cmdRsv1_commandWord]

/-- Settles O1: a command by its fields, a micro-operation by its phase code. -/
theorem decodeOfEncodeIsIdentity : Obligations.DecodeOfEncodeIsIdentity := by
  intro i
  cases i with
  | unpack n => exact decodeCommand_unpack n
  | pack n => exact decodeCommand_pack n
  | invg n strict => exact decodeCommand_invg n strict
  | invp n strict => exact decodeCommand_invp n strict
  | mInit | mPivot | mSwap | mElim | mNext | mFin => rfl

/-! ## A word from its fields -/

/-- The five fields cover the word: with the reserved ones 0, the other three give it back (30_encoding.md R70). -/
theorem commandWord_of_fields {w : CmdWord} {op : OpField} {strict : Bool} (h1 : cmdRsv1 w = 0) (h0 : cmdRsv0 w = 0)
    (hop : (cmdOp w).toNat = op.toNat) (hs : cmdStrict w = strict) : commandWord op strict (cmdDim w) = w := by
  obtain rfl : cmdOp w = op := BitVec.eq_of_toNat_eq hop
  have low : ∀ k < 3, w.getLsbD (5 + k) = false := fun k hk => by
    simpa [cmdRsv0, hk] using congrArg (BitVec.getLsbD · k) h0
  have high : ∀ k < 8, w.getLsbD (24 + k) = false := fun k hk => by
    simpa [cmdRsv1, hk] using congrArg (BitVec.getLsbD · k) h1
  apply BitVec.eq_of_getLsbD_eq
  intro k hk
  rw [commandWord_getLsbD, ← hs]
  by_cases hlow : k < 4
  · simp [hlow, cmdOp]
  by_cases hst : k = 4
  · simp [hst, cmdStrict]
  by_cases hr0 : k < 8
  · have := low (k - 5) (by omega)
    rw [show 5 + (k - 5) = k by omega] at this
    simp [hlow, hst, this, show ¬ 8 ≤ k by omega]
  by_cases hn : k < 24
  · simp [hlow, hst, cmdDim, show k - 8 < 16 by omega, show 8 + (k - 8) = k by omega, show 8 ≤ k by omega]
  · have := high (k - 24) (by omega)
    rw [show 24 + (k - 24) = k by omega] at this
    simp [hlow, hst, cmdDim, this, show ¬ k - 8 < 16 by omega]

/-- Settles O2: the decoder has checked the fields that it does not return. -/
theorem encodeOfDecodedWordIsTheWord : Obligations.EncodeOfDecodedWordIsTheWord := by
  intro w i h
  unfold decodeCommand at h
  split at h
  case isTrue => cases h
  case isFalse hr =>
    obtain ⟨h1, h0⟩ := not_or.1 hr
    rw [not_not] at h1 h0
    split at h
    case h_1 hop =>
      split at h <;> cases h
      exact congrArg Encoding.cmd (commandWord_of_fields h1 h0 hop (by simpa using ‹¬ cmdStrict w = true›))
    case h_2 hop =>
      split at h <;> cases h
      exact congrArg Encoding.cmd (commandWord_of_fields h1 h0 hop (by simpa using ‹¬ cmdStrict w = true›))
    case h_3 hop =>
      cases h
      exact congrArg Encoding.cmd (commandWord_of_fields h1 h0 hop rfl)
    case h_4 hop =>
      cases h
      exact congrArg Encoding.cmd (commandWord_of_fields h1 h0 hop rfl)
    case h_5 => cases h

/-! ## The fields as arithmetic on the word's value -/

theorem cmdOp_toNat (w : CmdWord) : (cmdOp w).toNat = w.toNat % 16 := by
  simp [cmdOp]

theorem cmdRsv0_toNat (w : CmdWord) : (cmdRsv0 w).toNat = w.toNat / 32 % 8 := by
  simp [cmdRsv0, Nat.shiftRight_eq_div_pow]

theorem cmdRsv1_toNat (w : CmdWord) : (cmdRsv1 w).toNat = w.toNat / 2 ^ 24 := by
  have := w.isLt
  simp only [cmdRsv1, BitVec.extractLsb'_toNat, Nat.shiftRight_eq_div_pow]
  omega

theorem cmdStrict_eq (w : CmdWord) : cmdStrict w = decide (w.toNat / 16 % 2 = 1) := by
  simp [cmdStrict, BitVec.getLsbD, Nat.testBit_eq_decide_div_mod_eq]

theorem cmdDim_eq (w : CmdWord) : cmdDim w = BitVec.ofNat 16 (w.toNat / 256) := by
  apply BitVec.eq_of_toNat_eq
  simp [cmdDim, Nat.shiftRight_eq_div_pow]

/-- The words that are no command, by their fields (30_encoding.md R79). -/
def IllegalFields (w : CmdWord) : Prop :=
  cmdRsv1 w ≠ 0 ∨ cmdRsv0 w ≠ 0 ∨ (cmdOp w).toNat = 0 ∨ 5 ≤ (cmdOp w).toNat ∨
    (((cmdOp w).toNat = 1 ∨ (cmdOp w).toNat = 2) ∧ cmdStrict w = true)

theorem illegalFields_iff (w : CmdWord) :
    IllegalFields w ↔ (w.toNat / 2 ^ 24 ≠ 0 ∨ w.toNat / 32 % 8 ≠ 0 ∨ w.toNat % 16 = 0 ∨ 5 ≤ w.toNat % 16 ∨
      ((w.toNat % 16 = 1 ∨ w.toNat % 16 = 2) ∧ w.toNat / 16 % 2 = 1)) := by
  simp only [IllegalFields, ne_eq, ← BitVec.toNat_inj, cmdOp_toNat, cmdRsv0_toNat, cmdRsv1_toNat, cmdStrict_eq,
    decide_eq_true_eq]
  rfl

/-- A word that decodes is the encoding of a command, whose fields are legal. -/
theorem not_illegalFields_of_ok {w : CmdWord} {i : Instr} (h : decodeCommand w = .ok i) : ¬ IllegalFields w := by
  have he := encodeOfDecodedWordIsTheWord w i h
  obtain ⟨n, strict, rfl | rfl | rfl | rfl⟩ := Machine.decodeCommand_eq_ok h
  all_goals
    obtain rfl := Encoding.cmd.inj he
    simp [IllegalFields, cmdOp_commandWord, cmdStrict_commandWord, cmdRsv0_commandWord, cmdRsv1_commandWord]

/-- Settles O3: a word with illegal fields cannot decode, and one with legal fields is an encoded command. -/
theorem decodeReadsTheCommandFields : Obligations.DecodeReadsTheCommandFields := by
  intro w
  dsimp only
  split
  case isTrue hill =>
    cases hd : decodeCommand w with
    | error e => exact ⟨e, rfl⟩
    | ok i => exact absurd ((illegalFields_iff w).2 hill) (not_illegalFields_of_ok hd)
  case isFalse hleg =>
    have fields : ¬ IllegalFields w := mt (illegalFields_iff w).1 hleg
    simp only [IllegalFields, not_or, not_and, ne_eq, not_not, Bool.not_eq_true] at fields
    obtain ⟨h1, h0, -, -, hs⟩ := fields
    rw [← cmdDim_eq, ← cmdStrict_eq, ← cmdOp_toNat]
    have word : ∀ {op : OpField} {strict : Bool}, (cmdOp w).toNat = op.toNat → cmdStrict w = strict →
        w = commandWord op strict (cmdDim w) := fun ho hs => (commandWord_of_fields h1 h0 ho hs).symm
    refine ⟨fun ho => ?_, fun ho => ?_, fun ho => ?_, fun ho => ?_⟩
    · exact (congrArg decodeCommand (word (op := 1) ho (hs (.inl ho)))).trans (decodeCommand_unpack _)
    · exact (congrArg decodeCommand (word (op := 2) ho (hs (.inr ho)))).trans (decodeCommand_pack _)
    · exact (congrArg decodeCommand (word (op := 3) ho rfl)).trans (decodeCommand_invg _ _)
    · exact (congrArg decodeCommand (word (op := 4) ho rfl)).trans (decodeCommand_invp _ _)

/-- Settles O4: each word and each code is closed, and the decoder computes. -/
theorem exampleWordsDecode : Obligations.ExampleWordsDecode := by
  unfold Obligations.ExampleWordsDecode
  decide

end Sys2Proof

/-! # What a step answers

The rejections at acceptance, and the status word and the payload of every response. -/

namespace Sys2Proof.Machine

/-! ## Rejections -/

/-- Raising an error answers the request on offer (60_exceptions.md R156). -/
theorem raise_eq_answered {s : State} {r : Request} {rest : List Request} (e : ErrorKind) (ho : s.Offers r rest) :
    s.raise e = s.answered rest (stsError e) [] := by
  simp [State.raise, State.takeRequest, State.respond, State.answered, ho.2]

theorem accept_of_raise {s : State} {r : Request} {rest : List Request} {n : Dim} {verdict : List Item → Verdict}
    {e : ErrorKind} (ho : s.Offers r rest) (hf : payloadFits s.cfg r.payload = true) (hv : verdict r.payload = .raise e) :
    accept s n verdict = .next (s.answered rest (stsError e) []) := by
  rw [accept_of_offer n verdict ho.1 ho.2 hf, hv, State.conclude_raise, raise_eq_answered e ho]

theorem unpackVerdict_of_cells {c : Config} {p : List Item} {cs : List Nat} (n : Dim) (h : .cells cs ∈ p) :
    unpackVerdict c n p = .raise .invalidDimension := by
  obtain ⟨r, -, rfl, -⟩ | ⟨-, hv⟩ := unpackVerdict_cases c n p
  · simp at h
  · exact hv

theorem packVerdict_of_row {c : Config} {p : List Item} {x : Nat} (n : Dim) (h : .row x ∈ p) :
    packVerdict c n p = .raise .invalidDimension := by
  obtain ⟨cs, -, rfl, -⟩ | ⟨cs, -, rfl, -⟩ | ⟨-, hv⟩ := packVerdict_cases c n p
  · simp at h
  · simp at h
  · exact hv

theorem invgVerdict_of_row {c : Config} {p : List Item} {x : Nat} (n : Dim) (strict : Bool) (h : .row x ∈ p) :
    invgVerdict c n strict p = .raise .invalidDimension := by
  have bad : p.all (isSeqOf n.toNat) ≠ true := fun ha => by
    simpa [isSeqOf] using List.all_eq_true.1 ha _ h
  obtain ⟨-, ⟨-, ha⟩, -⟩ | ⟨-, ⟨-, ha⟩, -⟩ | ⟨-, hv⟩ := invgVerdict_cases c n strict p
  · exact absurd ha bad
  · exact absurd ha bad
  · exact hv

theorem invpVerdict_of_cells {c : Config} {p : List Item} {cs : List Nat} (n : Dim) (strict : Bool) (h : .cells cs ∈ p) :
    invpVerdict c n strict p = .raise .invalidDimension := by
  obtain ⟨-, ⟨-, ha⟩, -⟩ | ⟨-, hv⟩ := invpVerdict_cases c n strict p
  · simpa [isRow, asRow] using List.all_eq_true.1 ha _ h
  · exact hv

/-- Settles O19: each command's checks reject a payload with an item of the other kind. -/
theorem itemOfOtherKindIsInvalidDimension : Obligations.ItemOfOtherKindIsInvalidDimension := by
  intro s r rest n strict ho hf
  constructor
  · rintro ⟨cs, hcs⟩
    exact ⟨accept_of_raise ho hf (unpackVerdict_of_cells n hcs), accept_of_raise ho hf (invpVerdict_of_cells n strict hcs)⟩
  · rintro ⟨x, hx⟩
    exact ⟨accept_of_raise ho hf (packVerdict_of_row n hx), accept_of_raise ho hf (invgVerdict_of_row n strict hx)⟩

/-! ## Responses -/

/-- What the block emits: an error with an empty payload, or a result (30_encoding.md R75). The status of a codec result
is that of an inversion with `inv` = 0. -/
inductive Emits : Response → Prop
  | error (e : ErrorKind) : Emits { sts := stsError e, payload := [] }
  | result (inv : Bool) (payload : List Item) : Emits { sts := stsInverse inv, payload := payload }

theorem Emits.sts_mem {r : Response} (h : Emits r) : r.sts ∈ ([0x1, 0x3, 0x10, 0x20, 0x30, 0x40] : List StsWord) := by
  cases h with
  | error e => cases e <;> decide
  | result inv payload =>
    change stsInverse inv ∈ _
    cases inv <;> decide

theorem stsOkBit_stsInverse (inv : Bool) : stsOkBit (stsInverse inv) = true := by
  cases inv <;> decide

theorem stsOkBit_stsError (e : ErrorKind) : stsOkBit (stsError e) = false := by
  cases e <;> decide

theorem Emits.payload_eq_nil {r : Response} (h : Emits r) (hok : stsOkBit r.sts = false) : r.payload = [] := by
  cases h with
  | error e => rfl
  | result inv payload => simp [stsOkBit_stsInverse] at hok

/-- M_FIN's response is an error or the rows of the companion (41_inverter.md R106). -/
theorem inversionResponse_cases (op : InvOp) (strict inv : Bool) (n : Nat) (comp : List Nat) :
    inversionResponse op strict inv n comp = { sts := stsError .notInvertible, payload := [] } ∨
    inversionResponse op strict inv n comp =
      { sts := stsInverse inv, payload := (List.range n).map fun i => storeItem op n (readRow comp i) } := by
  unfold inversionResponse
  split
  · exact .inl rfl
  · exact .inr rfl

theorem emits_inversionResponse (op : InvOp) (strict inv : Bool) (n : Nat) (comp : List Nat) :
    Emits (inversionResponse op strict inv n comp) := by
  obtain h | h := inversionResponse_cases op strict inv n comp <;> rw [h]
  · exact .error _
  · exact .result _ _

/-- Acceptance answers at most once. -/
theorem conclude_responses (s : State) (n : Dim) (p : List Item) (v : Verdict) :
    (s.conclude n p v).responses = s.responses ∨
      ∃ r, Emits r ∧ (s.conclude n p v).responses = s.responses ++ [r] := by
  cases v with
  | raise e => exact .inr ⟨_, .error e, rfl⟩
  | done out => exact .inr ⟨_, .result false out, rfl⟩
  | start op strict => exact .inl rfl

/-- Every step answers at most once (10_state.md R41). -/
theorem step_responses {s t : State} (h : step s = .next t) :
    t.responses = s.responses ∨ ∃ r, Emits r ∧ t.responses = s.responses ++ [r] := by
  obtain ⟨-, -, rfl⟩ | ⟨-, -, rfl⟩ | ⟨-, r, rest, i, -, hd, hx⟩ | ⟨-, rfl⟩ | ⟨-, rfl⟩ | ⟨-, rfl⟩ | ⟨-, rfl⟩ | ⟨-, rfl⟩ |
    ⟨-, rfl⟩ := step_cases h
  · exact .inl rfl
  · exact .inr ⟨_, .error .illegalCommand, rfl⟩
  · obtain ⟨n, verdict, he⟩ := exec_of_decodeCommand hd s
    obtain ⟨r', -, -, -, -, rfl⟩ := accept_eq_next (he ▸ hx)
    exact conclude_responses s n r'.payload (verdict r'.payload)
  · exact .inl rfl
  · exact .inl rfl
  · exact .inl rfl
  · exact .inl rfl
  · exact .inl (State.nextStep_responses s)
  · exact .inr ⟨_, emits_inversionResponse _ _ _ _ _, rfl⟩

/-- Settles O41: the one response that a step may add is an error or a result. -/
theorem onlySixStatusWordsOccur : Obligations.OnlySixStatusWordsOccur := by
  intro s t h r hr
  obtain hn | ⟨r', he, ha⟩ := step_responses h
  · simp [hn] at hr
  · obtain rfl : r = r' := by simpa [ha] using hr
    exact ⟨he.sts_mem, he.payload_eq_nil⟩

theorem step_of_fin {s : State} (hp : s.ph = .fin) : step s = .next s.finStep := by
  rw [step_of_busy (busy_of_ph hp (by decide)), State.microStep, hp]

/-- Settles O42: the items are made of the companion's rows, which have no bit at or above the dimension. -/
theorem inversionPayloadHasItsShape : Obligations.InversionPayloadHasItsShape := by
  intro s t hw hp h
  obtain rfl : s.finStep = t := by simpa [step_of_fin hp] using h
  refine ⟨_, State.finStep_responses s, fun hok => ?_⟩
  obtain hr | hr := inversionResponse_cases s.cmdr.op s.cmdr.strict s.inv s.dim s.C <;> rw [hr] at hok ⊢
  · simp [stsOkBit_stsError] at hok
  · refine ⟨by simp, fun hop it hit => ?_, fun hop it hit => ?_⟩
    · obtain ⟨i, hi, rfl⟩ := List.mem_map.1 hit
      rw [hop]
      exact ⟨_, rfl, (hw.highBitsZero (loaded_of_ph hp (by decide)) i (List.mem_range.1 hi)).2⟩
    · obtain ⟨i, -, rfl⟩ := List.mem_map.1 hit
      rw [hop]
      exact ⟨_, rfl, unpackSeq_length _ _, unpackSeq_lt_two _ _⟩

end Sys2Proof.Machine

/-! # The high bits of INVP's rows

M_INIT loads the same rows from the packed rows and from the masked ones, and no later micro-operation reads `IB`. -/

namespace Sys2Proof.Machine

/-- The state with other contents of the request buffer. -/
def State.withIB (s : State) (ib : List Item) : State := { s with IB := ib }

@[simp] theorem State.withIB_ph (s : State) (ib : List Item) : (s.withIB ib).ph = s.ph := rfl

/-- The state with one more request in front of those on offer. -/
def State.withOffer (s : State) (r : Request) : State := { s with requests := r :: s.requests }

theorem State.withOffer_offers {s : State} (r : Request) (hi : s.ph = .idle) : (s.withOffer r).Offers r s.requests :=
  ⟨hi, rfl⟩

theorem State.Wf.withOffer {s : State} {r : Request} (hw : s.Wf) (hf : payloadFits s.cfg r.payload = true) :
    (s.withOffer r).Wf :=
  ⟨hw.cfgWf, hw.storesWf, hw.commandWf, hw.sequencerWf, hw.highBitsZero, List.forall_mem_cons.2 ⟨hf, hw.requestsFit⟩⟩

/-! ## What reads the request buffer -/

theorem loadItem_maskedItem (n i r : Nat) :
    loadItem .invp n i (some (maskedItem n r)) = loadItem .invp n i (some (.row r)) := by
  simp [loadItem, maskedItem, mask, Nat.and_two_pow_sub_one_eq_mod]

/-- The load reads the buffer only through the rows its items load. -/
theorem loadRows_congr {op : InvOp} {n : Nat} {ib ib' : List Item} (rows : List Nat)
    (h : ∀ i < n, loadItem op n i ib[i]? = loadItem op n i ib'[i]?) : loadRows op n ib rows = loadRows op n ib' rows := by
  refine List.ext_getElem? fun i => ?_
  simp only [loadRows, List.getElem?_mapIdx]
  by_cases hi : i < n
  · simp only [hi, h i hi]
  · simp only [hi, if_false]

/-- M_INIT writes the same stores from two buffers whose items load the same rows. -/
theorem initStep_withIB {s : State} {ib : List Item}
    (h : ∀ i < s.dim, loadItem s.cmdr.op s.dim i ib[i]? = loadItem s.cmdr.op s.dim i s.IB[i]?) :
    (s.withIB ib).initStep = s.initStep.withIB ib := by
  have hW : loadRows s.cmdr.op s.dim ib s.W = loadRows s.cmdr.op s.dim s.IB s.W := loadRows_congr s.W h
  simp only [State.initStep, State.withIB, hW]

/-- No other micro-operation reads `IB` (10_state.md R26). -/
theorem microStep_withIB {s : State} (hl : s.Loaded) (ib : List Item) :
    (s.withIB ib).microStep = s.microStep.withIB ib := by
  rw [State.microStep, State.microStep, State.withIB_ph]
  cases hp : s.ph with
  | idle => rfl
  | init => exact absurd hp hl.2
  | pivot | swap | elim | fin => rfl
  | next =>
    by_cases hc : s.j.toNat + 1 < s.dim
    · rw [State.nextStep_of_lt hc, State.nextStep_of_lt (s := s.withIB ib) hc]
      rfl
    · rw [State.nextStep_of_not_lt hc, State.nextStep_of_not_lt (s := s.withIB ib) hc]
      rfl

/-- The sequencer does not come back to M_INIT (10_state.md R29). -/
theorem microStep_ph_ne_init {s : State} (hb : s.Busy) : s.microStep.ph ≠ .init := by
  rw [State.microStep]
  cases hp : s.ph with
  | idle => exact absurd hp hb
  | init | swap | elim | fin => nofun
  | pivot =>
    obtain h | h | h := phaseAfterScan_cases s.cfg.policy (findPivot s.W s.cmdr.n.toNat s.j.toNat).isSome <;> simp [h]
  | next =>
    simp only [State.nextStep_ph]
    split <;> nofun

/-- Once M_INIT has run, the contents of `IB` do not change the response. -/
theorem answerAlike_withIB {s : State} (hw : s.Wf) (hl : s.Loaded) (ib : List Item) :
    AnswerAlike s (s.withIB ib) s.requests s.requests := by
  have hs := step_of_busy hl.1
  have hs' : step (s.withIB ib) = .next (s.microStep.withIB ib) := by
    rw [step_of_busy (s := s.withIB ib) hl.1, microStep_withIB hl]
  by_cases hf : s.ph = .fin
  · have hm : s.microStep = s.finStep := by rw [State.microStep, hf]
    rw [hm] at hs hs'
    exact AnswerAlike.of_last_step (t := s.finStep) (t' := s.finStep.withIB ib) hs hs' rfl rfl rfl rfl
  · obtain ⟨hq, hr, hb, hlt⟩ := microStep_goes_on hw hl.1 hf
    have ih := answerAlike_withIB ((stepsTo_of_step hs).keeps_wf hw) ⟨hb, microStep_ph_ne_init hl.1⟩ ib
    rw [hq] at ih
    exact ih.of_step hs hs' hr hr
termination_by s.stepsLeft

/-- Two blocks that differ in `IB` alone, by items that load the same rows, give the same response. -/
theorem answerAlike_of_same_loads {s : State} {ib : List Item} (hw : s.Wf) (hp : s.ph = .init)
    (h : ∀ i < s.dim, loadItem s.cmdr.op s.dim i ib[i]? = loadItem s.cmdr.op s.dim i s.IB[i]?) :
    AnswerAlike s (s.withIB ib) s.requests s.requests := by
  have hs : step s = .next s.initStep := by
    rw [step_of_busy (busy_of_ph hp (by decide)), State.microStep, hp]
  have hs' : step (s.withIB ib) = .next (s.initStep.withIB ib) := by
    rw [step_of_busy (busy_of_ph (s := s.withIB ib) hp (by decide)), State.microStep, State.withIB_ph, hp]
    exact congrArg _ (initStep_withIB h)
  have alike := answerAlike_withIB ((stepsTo_of_step hs).keeps_wf hw) ⟨nofun, nofun⟩ ib
  exact alike.of_step hs hs' rfl rfl

/-! ## From the offer -/

/-- An admitted INVP is latched (42_pipeline.md R130). -/
theorem step_of_admitted_invp {s : State} {n : Dim} {strict : Bool} {payload : List Item} {rest : List Request}
    (ho : s.Offers { cmd := commandWord 4 strict n, payload := payload } rest) (hf : payloadFits s.cfg payload = true)
    (ha : AdmitsInversion s.cfg .invp n payload) :
    step s = .next (s.takeRequest.latch .invp strict n payload) := by
  have hv : invpVerdict s.cfg n strict payload = .start .invp strict := by
    obtain ⟨-, -, hv⟩ | ⟨hn, -⟩ := invpVerdict_cases s.cfg n strict payload
    · exact hv
    · exact absurd ⟨ha.length, List.all_eq_true.2 ha.items⟩ (hn.resolve_left (not_not.2 ha.dimension))
  rw [step_of_decodes ho (decodeCommand_invp n strict)]
  exact (accept_of_offer n _ ho.1 ho.2 hf).trans (by rw [hv, State.conclude_start])

/-- INVP admits any `n` packed rows. -/
theorem admitsInversion_map_row {c : Config} {n : Dim} {rows : List Nat} (f : Nat → Nat) (hn : Dim.WellFormed c n)
    (hlen : rows.length = n.toNat) : AdmitsInversion c .invp n (rows.map fun r => .row (f r)) := by
  refine ⟨hn, by simpa using hlen, fun it hit => ?_⟩
  obtain ⟨r, -, rfl⟩ := List.mem_map.1 hit
  rfl

theorem payloadFits_map_row {c : Config} {rows : List Nat} (f : Nat → Nat) (h : ∀ r ∈ rows, f r < 2 ^ c.nMax) :
    payloadFits c (rows.map fun r => .row (f r)) = true := by
  simpa [payloadFits, itemFits] using h

/-- Settles O57: both requests are admitted, and what is latched differs only in bits that M_INIT drops. -/
theorem highBitsOfInputRowsAreIgnored : Obligations.HighBitsOfInputRowsAreIgnored := by
  rintro s rest n strict rows hw hi rfl hn hlen hfit
  have hfr : payloadFits s.cfg (rows.map .row) = true := payloadFits_map_row id hfit
  have hfm : payloadFits s.cfg (rows.map (maskedItem n.toNat)) = true :=
    payloadFits_map_row (· &&& mask n.toNat) fun r hr => Nat.and_le_left.trans_lt (hfit r hr)
  have har : AdmitsInversion s.cfg .invp n (rows.map .row) := admitsInversion_map_row id hn hlen
  have ham : AdmitsInversion s.cfg .invp n (rows.map (maskedItem n.toNat)) :=
    admitsInversion_map_row (· &&& mask n.toNat) hn hlen
  have latchRows := step_of_admitted_invp (strict := strict) (State.withOffer_offers _ hi) hfr har
  have latchMasked := step_of_admitted_invp (strict := strict) (State.withOffer_offers _ hi) hfm ham
  have wf := (stepsTo_of_step latchRows).keeps_wf (hw.withOffer hfr)
  refine (answerAlike_of_same_loads (ib := latchItems n.toNat (rows.map (maskedItem n.toNat)) s.IB) wf rfl ?_).of_step
    latchRows latchMasked rfl rfl
  intro i (h : i < n.toNat)
  change loadItem .invp n.toNat i _ = loadItem .invp n.toNat i (latchItems n.toNat (rows.map .row) s.IB)[i]?
  rw [latchItems_of_admits har hw.length_IB h, latchItems_of_admits ham hw.length_IB h, List.getElem?_map,
    List.getElem?_map]
  cases rows[i]? with
  | none => rfl
  | some r => exact loadItem_maskedItem n.toNat i r

end Sys2Proof.Machine

/-! # The codec

The law of `unpackSeq` and `packSeq` cell by cell and bit by bit, then the two commands, whose verdicts are that law. -/

namespace Sys2Proof.Machine

/-! ## `unpackSeq` -/

theorem toNat_testBit_eq_shiftRight_and_one (r k : Nat) : (r.testBit k).toNat = (r >>> k) &&& 1 := by
  rw [Nat.toNat_testBit, Nat.and_one_is_mod, Nat.shiftRight_eq_div_pow]

/-- `unpackSeq` in the form in which 40_codec.md R92 gives each cell. -/
theorem unpackSeq_eq_map_shiftRight (r n : Nat) : unpackSeq r n = (List.range n).map fun k => (r >>> k) &&& 1 := by
  simp only [unpackSeq, toNat_testBit_eq_shiftRight_and_one]

theorem unpackSeq_congr {x y n : Nat} (h : ∀ k < n, x.testBit k = y.testBit k) : unpackSeq x n = unpackSeq y n :=
  List.map_congr_left fun k hk => by rw [h k (List.mem_range.1 hk)]

theorem testBit_and_mask (x n k : Nat) : (x &&& mask n).testBit k = (x.testBit k && decide (k < n)) := by
  rw [Nat.testBit_and, mask, Nat.testBit_two_pow_sub_one]

/-- Settles O11: the masked row has the same bits below `n`. -/
theorem unpackSelectsEachBit : Obligations.UnpackSelectsEachBit := by
  intro r n
  refine ⟨unpackSeq_length r n, fun k hk => ?_, unpackSeq_congr fun k hk => ?_⟩
  · rw [unpackSeq_getElem? r n k hk, toNat_testBit_eq_shiftRight_and_one]
  · rw [testBit_and_mask, decide_eq_true hk, Bool.and_true]

/-! ## `packSeq` -/

/-- The weighted sum that 40_codec.md R93 writes. -/
theorem packSeq_eq_sum (bs : List Nat) :
    packSeq bs = ((List.range bs.length).map fun k => (bs[k]?).getD 0 * 2 ^ k).sum := by
  induction bs with
  | nil => rfl
  | cons b bs ih =>
    have shifted : ((List.range bs.length).map fun k => (bs[k]?).getD 0 * 2 ^ (k + 1)).sum = 2 * packSeq bs := by
      rw [ih, ← List.sum_map_mul_left]
      exact congrArg List.sum (List.map_congr_left fun k _ => by ring)
    rw [packSeq_cons, List.length_cons, List.range_succ_eq_map, List.map_cons, List.map_map, List.sum_cons, ← shifted]
    simp [Function.comp_def]

/-- Settles O12: the recursion from the last cell down is the sum, and legal cells are binary digits. -/
theorem packIsTheWeightedSum : Obligations.PackIsTheWeightedSum :=
  fun bs => ⟨packSeq_eq_sum bs, packSeq_lt bs⟩

/-! ## The round trip -/

/-- Packing keeps exactly the bits that unpacking reads (40_codec.md R94). -/
theorem packSeq_unpackSeq (n x : Nat) : packSeq (unpackSeq x n) = x &&& mask n := by
  refine Nat.eq_of_testBit_eq fun k => ?_
  rw [packSeq_testBit _ (unpackSeq_lt_two x n), testBit_and_mask]
  by_cases hk : k < n
  · rw [unpackSeq_getElem? x n k hk]
    cases x.testBit k <;> simp [hk]
  · rw [List.getElem?_eq_none (by simpa using hk)]
    simp [hk]

theorem unpackSeq_packSeq {b : List Nat} (h : ∀ c ∈ b, c < 2) : unpackSeq (packSeq b) b.length = b := by
  refine List.ext_getElem (unpackSeq_length _ _) fun k _ hk => ?_
  have binary : b[k] < 2 := h _ (List.getElem_mem hk)
  rw [List.getElem_eq_iff, unpackSeq_getElem? _ _ k hk, packSeq_testBit b h, List.getElem?_eq_getElem hk, Option.getD_some]
  interval_cases b[k] <;> rfl

/-- Settles O13: the first sentence is the last where `mask(n)` drops no bit of `x`. -/
theorem codecRoundTrip : Obligations.CodecRoundTrip := by
  refine ⟨fun n x hx => ?_, ?_, packSeq_unpackSeq⟩
  · rw [packSeq_unpackSeq, mask, Nat.and_two_pow_sub_one_of_lt_two_pow hx]
  · rintro n b rfl h
    exact unpackSeq_packSeq h

/-! ## The commands -/

/-- Acceptance of a request whose checks give a codec result answers it (10_state.md R42). -/
theorem accept_of_done {s : State} {r : Request} {rest : List Request} {n : Dim} {verdict : List Item → Verdict}
    {out : List Item} (ho : s.Offers r rest) (hf : payloadFits s.cfg r.payload = true) (hv : verdict r.payload = .done out) :
    accept s n verdict = .next (s.answered rest stsOk out) := by
  rw [accept_of_offer n verdict ho.1 ho.2 hf, hv, State.conclude_done]
  simp [State.takeRequest, State.respond, State.answered, ho.2]

theorem unpackVerdict_of_row {c : Config} {n : Dim} (r : Nat) (hn : Dim.WellFormed c n) :
    unpackVerdict c n [.row r] = .done [.cells (unpackSeq r n.toNat)] := by
  obtain ⟨r', -, hr, hv⟩ | ⟨hbad, -⟩ := unpackVerdict_cases c n [.row r]
  · obtain rfl : r = r' := by simpa using hr
    exact hv
  · exact absurd rfl (hbad.resolve_left (not_not.2 hn) r)

theorem packVerdict_of_cells {c : Config} {n : Dim} {bits : List Nat} (hn : Dim.WellFormed c n)
    (hlen : bits.length = n.toNat) (hbits : ∀ b ∈ bits, b < 2) :
    packVerdict c n [.cells bits] = .done [.row (packSeq bits)] := by
  obtain ⟨cs, -, hcs, -, -, hv⟩ | ⟨cs, -, hcs, -, ⟨x, hx, hlt⟩, -⟩ | ⟨hbad, -⟩ := packVerdict_cases c n [.cells bits]
  · obtain rfl : bits = cs := by simpa using hcs
    exact hv
  · obtain rfl : bits = cs := by simpa using hcs
    exact absurd (hbits x hx) (not_lt.2 hlt)
  · exact absurd hlen (hbad.resolve_left (not_not.2 hn) bits rfl)

theorem payloadFits_row {c : Config} {r : Nat} (h : r < 2 ^ c.nMax) : payloadFits c [.row r] = true := by
  simpa [payloadFits, itemFits] using h

/-- Legal cells fit, whatever the width of a cell (30_encoding.md R67). -/
theorem payloadFits_cells {c : Config} {bits : List Nat} (hc : c.WellFormed) (hbits : ∀ b ∈ bits, b < 2) :
    payloadFits c [.cells bits] = true := by
  obtain ⟨-, -, hw⟩ := hc
  have two_le : 2 ^ 1 ≤ 2 ^ c.cellW := Nat.pow_le_pow_right (by omega) hw
  simpa [payloadFits, itemFits] using fun b hb => (hbits b hb).trans_le two_le

/-- Settles O14: one row at a supported dimension passes every check, and UNPACK's cells are R92's. -/
theorem unpackAnswersTheBits : Obligations.UnpackAnswersTheBits := by
  intro s w rest n r ho hn hr
  rw [← unpackSeq_eq_map_shiftRight]
  exact accept_of_done ho (payloadFits_row hr) (unpackVerdict_of_row r hn)

/-- Settles O15: legal cells pass every check, and the row PACK makes is the sum. -/
theorem packAnswersTheSum : Obligations.PackAnswersTheSum := by
  intro s w rest n bits ho hc hn hlen hbits
  rw [← hlen, ← packSeq_eq_sum]
  exact accept_of_done ho (payloadFits_cells hc hbits) (packVerdict_of_cells hn hlen hbits)

end Sys2Proof.Machine

/-! # The columns done

While every column so far had a pivot, M_SWAP leaves the unit columns alone and M_ELIM makes one more (41_inverter.md
R112). -/

namespace Sys2Proof.Machine

/-- An M_PIVOT that leaves `INV` at 1 goes to M_SWAP. -/
theorem pivotStep_of_inv {s : State} (h : s.pivotStep.inv = true) : s.inv = true ∧ s.pivotStep.ph = .swap := by
  rw [State.pivotStep_inv, invAfterScan, Bool.and_eq_true] at h
  obtain ⟨hinv, hfound⟩ := h
  rw [State.pivotStep_ph, phaseAfterScan_eq_swap_iff]
  exact ⟨hinv, hfound⟩

section Columns

variable {s : State} (hw : s.Wf)
include hw

/-- M_SWAP permutes the bits of a column as it permutes the rows. -/
theorem State.Wf.readBit_swapStep (hp : s.ph = .swap) {i : Nat} (k : Nat) (hi : i < s.dim) :
    readBit s.swapStep.W i k = readBit s.W (Equiv.swap s.p.toNat s.j.toNat i) k := by
  obtain ⟨-, hW, -⟩ := hw.readRow_swapStep hp hi
  rw [readBit, hW, readBit]

/-- M_SWAP brings the pivot bit to the diagonal (41_inverter.md R103). -/
theorem State.Wf.readBit_swapStep_diagonal (hp : s.ph = .swap) :
    readBit s.swapStep.W s.j.toNat s.j.toNat = true := by
  obtain ⟨-, -, hbit⟩ := hw.pivot_row hp
  rw [hw.readBit_swapStep hp _ (hw.j_lt (loaded_of_ph hp (by decide))), Equiv.swap_apply_right, hbit]

/-- M_ELIM adds the bits of row `j` to those of the rows of `E`. -/
theorem State.Wf.readBit_elimStep (hp : s.ph = .elim) {i : Nat} (k : Nat) (hi : i < s.dim) :
    readBit s.elimStep.W i k =
      xor (readBit s.W i k) (inElimSet s.W s.dim s.j.toNat i && readBit s.W s.j.toNat k) := by
  obtain ⟨hW, -⟩ := hw.readRow_elimStep hp hi
  rw [readBit, hW]
  cases inElimSet s.W s.dim s.j.toNat i <;> simp [readBit, Nat.testBit_xor]

/-- With a pivot in row `j`, column `j` becomes that of the identity (41_inverter.md R104). -/
theorem State.Wf.readBit_elimStep_of_pivot (hp : s.ph = .elim) (hd : readBit s.W s.j.toNat s.j.toNat = true) {i : Nat}
    (hi : i < s.dim) : readBit s.elimStep.W i s.j.toNat = decide (i = s.j.toNat) := by
  rw [hw.readBit_elimStep hp _ hi, hd, inElimSet, decide_eq_true hi]
  by_cases hij : i = s.j.toNat
  · simp [hij, hd]
  · simp [hij]

/-- A column in which row `j` has a 0 is left as it was. -/
theorem State.Wf.readBit_elimStep_of_zero (hp : s.ph = .elim) {k : Nat} (hz : readBit s.W s.j.toNat k = false) {i : Nat}
    (hi : i < s.dim) : readBit s.elimStep.W i k = readBit s.W i k := by
  rw [hw.readBit_elimStep hp _ hi, hz, Bool.and_false, Bool.xor_false]

theorem StepsTo.keeps_pivotProgress {t : State} (hpp : s.PivotProgress) (h : StepsTo s t) : t.PivotProgress := by
  cases h with
  | wait | answer => exact hpp
  | start => exact fun hl => absurd rfl hl.2
  | init => exact fun _ _ => ⟨fun k hk => absurd hk (Nat.not_lt_zero k), nofun⟩
  | pivot hp =>
    intro _ hi
    obtain ⟨hinv, hswap⟩ := pivotStep_of_inv hi
    obtain ⟨hcols, -⟩ := hpp (loaded_of_ph hp (by decide)) hinv
    simp only [State.columnsDone, hp, hswap] at hcols ⊢
    exact ⟨hcols, nofun⟩
  | swap hp =>
    intro _ hi
    obtain ⟨hcols, -⟩ := hpp (loaded_of_ph hp (by decide)) hi
    obtain ⟨hjp, -, -⟩ := hw.pivot_row hp
    simp only [State.columnsDone, hp] at hcols
    refine ⟨fun k (hk : k < s.j.toNat) i (hin : i < s.dim) => ?_, fun _ => hw.readBit_swapStep_diagonal hp⟩
    obtain ⟨hm, -⟩ := hw.readRow_swapStep hp hin
    have fixed : Equiv.swap s.p.toNat s.j.toNat k = k := Equiv.swap_apply_of_ne_of_ne (by omega) (by omega)
    rw [hw.readBit_swapStep hp k hin, hcols k hk _ hm, decide_eq_decide, Equiv.swap_apply_eq_iff, fixed]
  | elim hp =>
    intro _ hi
    have hl := loaded_of_ph hp (by decide)
    obtain ⟨hcols, hdiag⟩ := hpp hl hi
    simp only [State.columnsDone, hp] at hcols
    refine ⟨fun k (hk : k < s.j.toNat + 1) i (hin : i < s.dim) => ?_, nofun⟩
    obtain hlt | rfl := Nat.lt_succ_iff_lt_or_eq.1 hk
    · have zero : readBit s.W s.j.toNat k = false := by
        rw [hcols k hlt _ (hw.j_lt hl)]
        exact decide_eq_false hlt.ne'
      rw [hw.readBit_elimStep_of_zero hp zero hin, hcols k hlt i hin]
    · exact hw.readBit_elimStep_of_pivot hp (hdiag hp) hin
  | next hp =>
    intro _ hi
    obtain ⟨hcols, -⟩ := hpp (loaded_of_ph hp (by decide)) (by simpa using hi)
    simp only [State.columnsDone, hp] at hcols
    by_cases hc : s.j.toNat + 1 < s.dim
    · rw [State.nextStep_of_lt hc]
      simp only [State.columnsDone, toNat_add_one hc]
      exact ⟨hcols, nofun⟩
    · rw [State.nextStep_of_not_lt hc]
      exact ⟨hcols, nofun⟩
  | fin => exact fun hl => absurd rfl hl.1

end Columns

/-- Settles O34: M_PIVOT drops `INV` where it finds no pivot, M_SWAP moves only rows whose done columns are 0, M_ELIM clears
column `j` with the pivot row. -/
theorem stepKeepsPivotProgress : Obligations.StepKeepsPivotProgress :=
  fun _ _ hw hpp h => (stepsTo_of_step h).keeps_pivotProgress hw hpp

/-- Settles O35: at M_FIN all columns are done, and the companion times the input is the working grid. -/
theorem workingGridIsIdentityAtFin : Obligations.WorkingGridIsIdentityAtFin := by
  intro s hw ha hpp hp hi
  have hl := loaded_of_ph hp (by decide)
  obtain ⟨hcols, -⟩ := hpp hl hi
  obtain ⟨-, hfin, -⟩ := hw.sequencerWf
  simp only [State.columnsDone, hp, hfin hp] at hcols
  have identity : storeGrid s.dim s.W = identityGrid s.dim := (gridOf_eq_iff _ _ _).2 fun i hi k hk => hcols k hk i hi
  exact ⟨identity, (ha hl).trans identity⟩

end Sys2Proof.Machine

/-! # The reference's operations on the stores

Grids are compared row by row. Each row operation of `invert_ref` on the grids of two stores is the sequencer's on the
packed rows; the inner loop is taken over the rows in any order (41_inverter.md R108, R111). -/

namespace Sys2Proof.Machine

/-! ## Rows of a grid -/

/-- The first `n` bits of a packed row as a row of a grid. -/
def rowBits (n r : Nat) : List Bool := (List.range n).map fun k => r.testBit k

theorem xorRow_rowBits (n a b : Nat) : xorRow (rowBits n a) (rowBits n b) = rowBits n (a ^^^ b) := by
  simp only [xorRow, rowBits, List.zipWith_map, List.zipWith_self, Nat.testBit_xor]

@[simp] theorem storeGrid_length (n : Nat) (rows : List Nat) : (storeGrid n rows).length = n := by
  simp [storeGrid, gridOf]

theorem gridRow_storeGrid {n i : Nat} (rows : List Nat) (hi : i < n) :
    gridRow (storeGrid n rows) i = rowBits n (readRow rows i) := by
  simp [gridRow, storeGrid, gridOf, hi, rowBits, readBit]

theorem entry_storeGrid {n i k : Nat} (rows : List Nat) (hi : i < n) (hk : k < n) :
    entry (storeGrid n rows) i k = readBit rows i k :=
  entry_gridOf _ hi hk

/-- Two grids with the same rows are the same. -/
theorem grid_ext {g g' : Grid} (hlen : g.length = g'.length) (h : ∀ i < g.length, gridRow g i = gridRow g' i) : g = g' := by
  refine List.ext_getElem hlen fun i hi hi' => ?_
  simpa [gridRow, hi, hi'] using h i hi

theorem gridRow_set {g : Grid} {a : Nat} (r : List Bool) (i : Nat) (ha : a < g.length) :
    gridRow (g.set a r) i = if i = a then r else gridRow g i := by
  by_cases hia : i = a
  · simp [gridRow, hia, ha]
  · simp [gridRow, hia, Ne.symm hia]

/-! ## The row exchange and the pivot search -/

@[simp] theorem refSwap_length (p j : Nat) (g : Grid) : (refSwap p j g).length = g.length := by
  simp [refSwap]

/-- The reference's exchange of two rows is that of the store (41_inverter.md R103). -/
theorem refSwap_storeGrid {n p j : Nat} {rows : List Nat} (hn : n ≤ rows.length) (hp : p < n) (hj : j < n) :
    refSwap p j (storeGrid n rows) = storeGrid n (swapRows j p rows) := by
  refine grid_ext (by simp) fun i hi => ?_
  have hi : i < n := by simpa using hi
  rw [gridRow_storeGrid _ hi, readRow_swapRows (by omega) (by omega), refSwap, gridRow_set _ _ (by simpa using hj),
    gridRow_set _ _ (by simpa using hp), gridRow_storeGrid _ hp, gridRow_storeGrid _ hj, gridRow_storeGrid _ hi]
  by_cases hij : i = j
  · by_cases hip : i = p
    · rw [if_pos hij, if_pos hip, ← hip, ← hij]
    · rw [if_pos hij, if_neg hip, if_pos hij]
  · simp only [hij, if_false, apply_ite (rowBits n)]

/-- The reference's pivot is the one M_PIVOT finds (41_inverter.md R102). -/
theorem refPivot_storeGrid {n j : Nat} (rows : List Nat) (hj : j < n) :
    refPivot (storeGrid n rows) n j = findPivot rows n j := by
  refine Option.ext fun i => ?_
  have bit : ∀ m < n, entry (storeGrid n rows) m j = readBit rows m j := fun m hm => entry_storeGrid rows hm hj
  simp only [findPivot_eq_some_iff, refPivot, List.find?_range'_eq_some, List.mem_range'_1, Bool.not_eq_true']
  constructor
  · rintro ⟨hb, ⟨hji, hin⟩, hm⟩
    exact ⟨⟨hji, by omega, by rwa [← bit i (by omega)]⟩, fun m h1 h2 => by rw [← bit m (by omega), hm m h1 h2]⟩
  · rintro ⟨⟨hji, hin, hb⟩, hm⟩
    exact ⟨by rwa [bit i hin], ⟨hji, by omega⟩, fun m h1 h2 => by rw [bit m (by omega), hm m h1 h2]⟩

/-! ## The inner loop -/

/-- Row `i` of the two grids. -/
def rowsAt (wc : Grid × Grid) (i : Nat) : List Bool × List Bool := (gridRow wc.1 i, gridRow wc.2 i)

/-- What the turn of the inner loop for row `i` makes of that row, with row `j` as `pivotRow`. -/
def turned (j i : Nat) (row pivotRow : List Bool × List Bool) : List Bool × List Bool :=
  if i ≠ j ∧ (row.1[j]?).getD false = true then (xorRow row.1 pivotRow.1, xorRow row.2 pivotRow.2) else row

theorem turned_pivotRow (j : Nat) (row : List Bool × List Bool) : turned j j row row = row := by
  simp [turned]

theorem turned_rowsAt (j i : Nat) (wc : Grid × Grid) :
    turned j i (rowsAt wc i) (rowsAt wc j) =
      if i ≠ j ∧ entry wc.1 i j = true then
        (xorRow (gridRow wc.1 i) (gridRow wc.1 j), xorRow (gridRow wc.2 i) (gridRow wc.2 j))
      else rowsAt wc i := rfl

/-- The turn on packed rows. -/
theorem turned_rowBits {n j : Nat} (i a b a' b' : Nat) (hj : j < n) :
    turned j i (rowBits n a, rowBits n b) (rowBits n a', rowBits n b') =
      if i ≠ j ∧ a.testBit j = true then (rowBits n (a ^^^ a'), rowBits n (b ^^^ b')) else (rowBits n a, rowBits n b) := by
  have bit : ((rowBits n a)[j]?).getD false = a.testBit j := by simp [rowBits, hj]
  rw [turned, bit, xorRow_rowBits, xorRow_rowBits]

theorem refRow_length (j a : Nat) (wc : Grid × Grid) :
    (refRow j wc a).1.length = wc.1.length ∧ (refRow j wc a).2.length = wc.2.length := by
  unfold refRow
  split <;> simp

theorem rowsAt_refRow {a : Nat} {wc : Grid × Grid} (j i : Nat) (h1 : a < wc.1.length) (h2 : a < wc.2.length) :
    rowsAt (refRow j wc a) i = if i = a then turned j i (rowsAt wc i) (rowsAt wc j) else rowsAt wc i := by
  unfold refRow
  split
  case isTrue ht =>
    by_cases hia : i = a
    · rw [if_pos hia, hia, turned_rowsAt, if_pos ht]
      simp only [rowsAt, gridRow_set _ _ h1, gridRow_set _ _ h2, if_true]
    · simp only [rowsAt, gridRow_set _ _ h1, gridRow_set _ _ h2, hia, if_false]
  case isFalse hf =>
    by_cases hia : i = a
    · rw [if_pos hia, hia, turned_rowsAt, if_neg hf]
    · rw [if_neg hia]

theorem refEliminate_length (j : Nat) (order : List Nat) (wc : Grid × Grid) :
    (refEliminate j order wc).1.length = wc.1.length ∧ (refEliminate j order wc).2.length = wc.2.length := by
  induction order generalizing wc with
  | nil => exact ⟨rfl, rfl⟩
  | cons a order ih =>
    obtain ⟨h1, h2⟩ := ih (refRow j wc a)
    obtain ⟨h1', h2'⟩ := refRow_length j a wc
    exact ⟨h1.trans h1', h2.trans h2'⟩

/-- Each row is turned by itself: no turn writes a row that another one reads, so the order does not show
(41_inverter.md R111). -/
theorem rowsAt_refEliminate {order : List Nat} {wc : Grid × Grid} (j i : Nat) (hnd : order.Nodup)
    (h1 : ∀ a ∈ order, a < wc.1.length) (h2 : ∀ a ∈ order, a < wc.2.length) :
    rowsAt (refEliminate j order wc) i = if i ∈ order then turned j i (rowsAt wc i) (rowsAt wc j) else rowsAt wc i := by
  induction order generalizing wc with
  | nil => simp [refEliminate]
  | cons a order ih =>
    obtain ⟨ha, hnd⟩ := List.nodup_cons.1 hnd
    obtain ⟨ha1, h1⟩ := List.forall_mem_cons.1 h1
    obtain ⟨ha2, h2⟩ := List.forall_mem_cons.1 h2
    obtain ⟨hl1, hl2⟩ := refRow_length j a wc
    have first : ∀ i, rowsAt (refRow j wc a) i = if i = a then turned j i (rowsAt wc i) (rowsAt wc j) else rowsAt wc i :=
      fun i => rowsAt_refRow j i ha1 ha2
    have pivotRow : rowsAt (refRow j wc a) j = rowsAt wc j := by
      rw [first, turned_pivotRow, ite_self]
    have rest := ih (wc := refRow j wc a) hnd (hl1.symm ▸ h1) (hl2.symm ▸ h2)
    change rowsAt (refEliminate j order (refRow j wc a)) i = _
    rw [rest]
    by_cases hi : i ∈ order
    · have hia : i ≠ a := fun h => ha (h ▸ hi)
      rw [if_pos hi, if_pos (List.mem_cons_of_mem a hi), pivotRow, first, if_neg hia]
    · simp only [hi, if_false, first, List.mem_cons, or_false]

theorem inElimSet_iff (w : List Nat) (n j i : Nat) :
    inElimSet w n j i = true ↔ i < n ∧ i ≠ j ∧ readBit w i j = true := by
  simp [inElimSet, and_assoc]

/-- The inner loop on the grids of two stores, over the rows in any order, is M_ELIM's XOR of all of them at once. -/
theorem refEliminate_storeGrid {n j : Nat} {w comp order : List Nat} (hw : n ≤ w.length) (hc : n ≤ comp.length)
    (hj : j < n) (horder : order.Perm (List.range n)) :
    refEliminate j order (storeGrid n w, storeGrid n comp) =
      (storeGrid n (elimRows w n j w), storeGrid n (elimRows w n j comp)) := by
  have mem : ∀ {a}, a ∈ order ↔ a < n := fun {a} => horder.mem_iff.trans List.mem_range
  have rows : ∀ i < n, rowsAt (refEliminate j order (storeGrid n w, storeGrid n comp)) i =
      rowsAt (storeGrid n (elimRows w n j w), storeGrid n (elimRows w n j comp)) i := by
    intro i hi
    rw [rowsAt_refEliminate j i (horder.nodup_iff.2 List.nodup_range) (fun a ha => by simpa using mem.1 ha)
      (fun a ha => by simpa using mem.1 ha), if_pos (mem.2 hi)]
    simp only [rowsAt, gridRow_storeGrid _ hi, gridRow_storeGrid _ hj, readRow_elimRows w n j (hi.trans_le hw),
      readRow_elimRows w n j (hi.trans_le hc), turned_rowBits _ _ _ _ _ hj]
    simp only [inElimSet_iff, hi, true_and, readBit]
    split <;> rfl
  obtain ⟨h1, h2⟩ := refEliminate_length j order (storeGrid n w, storeGrid n comp)
  refine Prod.ext (grid_ext (by simpa using h1) fun i hi => ?_) (grid_ext (by simpa using h2) fun i hi => ?_)
  · exact congrArg Prod.fst (rows i (by simpa [h1] using hi))
  · exact congrArg Prod.snd (rows i (by simpa [h2] using hi))

theorem State.Wf.dim_le_length {s : State} (hw : s.Wf) (hb : s.Busy) : s.dim ≤ s.W.length ∧ s.dim ≤ s.C.length := by
  rw [hw.length_W, hw.length_C]
  exact ⟨hw.dim_le hb, hw.dim_le hb⟩

/-- Settles O43: the grids of M_ELIM's stores are those of the inner loop in any order. -/
theorem eliminationOrderDoesNotMatter : Obligations.EliminationOrderDoesNotMatter := by
  intro s order hw hp horder
  obtain ⟨hW, hC⟩ := hw.dim_le_length (busy_of_ph hp (by decide))
  exact refEliminate_storeGrid hW hC (hw.j_lt (loaded_of_ph hp (by decide))) horder

end Sys2Proof.Machine

/-! # The acceptance of INVG and the six micro-operations -/

namespace Sys2Proof.Machine

/-! ## The acceptance of INVG -/

theorem itemLegal_invg_iff (n : Nat) (it : Item) :
    itemLegal .invg n it = true ↔ ∃ cs, it = .cells cs ∧ cs.length = n ∧ ∀ c ∈ cs, c < 2 := by
  cases it <;> simp [itemLegal, isSeqOf, hasBadCell]

/-- An admitted INVG is latched (41_inverter.md R100). -/
theorem exec_invg_of_admits {s : State} {r : Request} {rest : List Request} {n : Dim} (strict : Bool)
    (ho : s.Offers r rest) (hf : payloadFits s.cfg r.payload = true) (ha : AdmitsInversion s.cfg .invg n r.payload) :
    exec (.invg n strict) s = .next (s.takeRequest.latch .invg strict n r.payload) := by
  have cells : ∀ it ∈ r.payload, isSeqOf n.toNat it = true ∧ hasBadCell it = false := fun it hit => by
    simpa [itemLegal] using ha.items it hit
  have start : invgVerdict s.cfg n strict r.payload = .start .invg strict := by
    obtain ⟨-, -, -, hv⟩ | ⟨-, -, hb, -⟩ | ⟨hbad, -⟩ := invgVerdict_cases s.cfg n strict r.payload
    · exact hv
    · obtain ⟨it, hit, hc⟩ := List.any_eq_true.1 hb
      simp [(cells it hit).2] at hc
    · have shape : r.payload.all (isSeqOf n.toNat) = true := List.all_eq_true.2 fun it hit => (cells it hit).1
      exact absurd ⟨ha.length, shape⟩ (hbad.resolve_left (not_not.2 ha.dimension))
  exact (accept_of_offer n (invgVerdict s.cfg n strict) ho.1 ho.2 hf).trans (by rw [start, State.conclude_start])

/-- Settles O22: rows of legal cells are admitted, and acceptance latches them. -/
theorem invgIsLatched : Obligations.InvgIsLatched := by
  intro s w rest n strict rows ho hc hI hn hlen hrows
  have legal : ∀ it ∈ rows.map Item.cells, itemLegal .invg n.toNat it = true := by
    intro it hit
    obtain ⟨cs, hcs, rfl⟩ := List.mem_map.1 hit
    exact (itemLegal_invg_iff _ _).2 ⟨cs, rfl, hrows cs hcs⟩
  have fits : payloadFits s.cfg (rows.map .cells) = true := by
    refine List.all_eq_true.2 fun it hit => ?_
    obtain ⟨cs, hcs, rfl⟩ := List.mem_map.1 hit
    simpa [payloadFits] using payloadFits_cells hc (hrows cs hcs).2
  have admitted : AdmitsInversion s.cfg .invg n (rows.map .cells) := ⟨hn, by simpa using hlen, legal⟩
  refine ⟨latchItems n.toNat (rows.map .cells) s.IB, ?_, fun i hi => ?_, fun i hi => ?_⟩
  · rw [exec_invg_of_admits strict ho fits admitted]
    simp [State.takeRequest, State.latch, ho.2]
  · rw [latchItems_of_admits admitted hI hi, List.getElem?_map]
  · simp [latchItems_getElem?, Nat.not_lt.2 hi]

/-! ## The micro-operations -/

/-- The low bit of a legal cell is the cell. -/
theorem testBit_zero_of_lt_two {c : Nat} (h : c < 2) : c.testBit 0 = decide (c = 1) := by
  rw [Nat.testBit_zero, Nat.mod_eq_of_lt h]

/-- Settles O23: row by row, the load and the identity. -/
theorem mInitLoadsBothStores : Obligations.MInitLoadsBothStores := by
  intro s hw hp
  have hb := busy_of_ph hp (by decide)
  refine ⟨s.initStep.W, s.initStep.C, whenPhase_of_eq State.initStep hp, by simp, by simp, fun i hi => ?_, fun i hi =>
    ⟨loadRows_getElem?_of_le _ _ _ hi, identityRows_getElem?_of_le _ hi⟩⟩
  obtain ⟨it, hit, legal⟩ := hw.item hb hi
  obtain ⟨hW, hC⟩ := hw.readRow_initStep hp hi
  rw [hit] at hW
  refine ⟨hC, hW ▸ loadItem_lt i legal, fun r hop hr k hk => ?_, fun cs hop hcs k hk => ?_⟩
  · obtain rfl : it = .row r := Option.some.inj (hit.symm.trans hr)
    rw [readBit, hW, loadItem_testBit i k legal, hop, decide_eq_true hk, Bool.true_and]
    rfl
  · obtain rfl : it = .cells cs := Option.some.inj (hit.symm.trans hcs)
    rw [hop, itemLegal_invg_iff] at legal
    obtain ⟨cs', hcs', hlen, hcell⟩ := legal
    obtain rfl : cs = cs' := Item.cells.inj hcs'
    have hkl : k < cs.length := hlen.symm ▸ hk
    rw [readBit, hW, hop, loadItem_cells_testBit, decide_eq_true hk, Bool.true_and, List.getElem?_eq_getElem hkl,
      Option.getD_some, testBit_zero_of_lt_two (hcell _ (List.getElem_mem hkl)), decide_eq_decide, Option.some_inj]

/-- Settles O24: the search finds the first candidate, or none. -/
theorem mPivotFindsTheFirstRow : Obligations.MPivotFindsTheFirstRow := by
  intro s hp
  have run : exec .mPivot s = .next s.pivotStep := whenPhase_of_eq State.pivotStep hp
  rw [run]
  refine ⟨fun i hji hin hbit hfirst => ?_, fun hnone => ?_⟩
  · have found : findPivot s.W s.cmdr.n.toNat s.j.toNat = some i :=
      (findPivot_eq_some_iff _ _ _ _).2 ⟨⟨hji, hin, hbit⟩, hfirst⟩
    simp [State.pivotStep, found, phaseAfterScan, invAfterScan]
  · have none : findPivot s.W s.cmdr.n.toNat s.j.toNat = none := (findPivot_eq_none_iff _ _ _).2 hnone
    cases hpol : s.cfg.policy <;> simp [State.pivotStep, none, phaseAfterScan, invAfterScan, hpol]

/-- Settles O25: one exchange of rows in both stores; row `p` had the pivot bit. -/
theorem mSwapExchangesRowsInBothStores : Obligations.MSwapExchangesRowsInBothStores := by
  intro s hw hp
  have hb := busy_of_ph hp (by decide)
  have hj := hw.j_lt (loaded_of_ph hp (by decide))
  obtain ⟨-, hpn, -⟩ := hw.pivot_row hp
  obtain ⟨-, hjW, hjC⟩ := hw.readRow_swapStep hp hj
  obtain ⟨-, hpW, hpC⟩ := hw.readRow_swapStep hp hpn
  rw [Equiv.swap_apply_right] at hjW hjC
  rw [Equiv.swap_apply_left] at hpW hpC
  exact ⟨s.swapStep.W, s.swapStep.C, whenPhase_of_eq State.swapStep hp, by simp, by simp, hjW, hpW, hjC, hpC,
    fun i hij hip => ⟨swapRows_getElem?_of_ne _ hij hip, swapRows_getElem?_of_ne _ hij hip⟩,
    hw.readBit_swapStep_diagonal hp⟩

/-- Settles O26: the rows of `E` take the XOR, and column `j` follows from the bit on the diagonal. -/
theorem mElimAddsThePivotRow : Obligations.MElimAddsThePivotRow := by
  intro s hw hp
  refine ⟨s.elimStep.W, s.elimStep.C, whenPhase_of_eq State.elimStep hp, by simp, by simp, fun i hi => ?_,
    fun hd i hi => hw.readBit_elimStep_of_pivot hp hd hi, fun hz i hi => hw.readBit_elimStep_of_zero hp hz hi⟩
  rw [State.elimStep_W, State.elimStep_C, readRow_elimRows _ _ _ (hw.length_W.symm ▸ hi),
    readRow_elimRows _ _ _ (hw.length_C.symm ▸ hi)]
  simp only [inElimSet_iff]
  split <;> exact ⟨rfl, rfl⟩

/-- Settles O27: the comparison of 41_inverter.md R105. -/
theorem mNextAdvancesTheColumn : Obligations.MNextAdvancesTheColumn :=
  fun _ hp => whenPhase_of_eq State.nextStep hp

/-- Settles O28: the strict variant of a singular matrix, else each format's payload. -/
theorem mFinResponds : Obligations.MFinResponds := by
  intro s hp
  have run : exec .mFin s = .next s.finStep := whenPhase_of_eq State.finStep hp
  have sts : stsInverse s.inv = if s.inv = true then 0x3 else 0x1 := by cases s.inv <;> rfl
  have result : s.cmdr.strict = false ∨ s.inv = true → (s.cmdr.strict && !s.inv) = false := by
    rintro (h | h) <;> simp [h]
  simp only [run]
  refine ⟨fun hs hi => ?_, fun hok hop => ?_, fun hok hop => ?_⟩
  · simp [State.finStep, inversionResponse, hs, hi, State.respond, State.toPhase, stsError, errorCode, statusWord]
  · simp [State.finStep, inversionResponse, result hok, hop, State.respond, State.toPhase, sts, storeItem, unpackSeq,
      readBit]
  · simp [State.finStep, inversionResponse, result hok, hop, State.respond, State.toPhase, sts, storeItem]

end Sys2Proof.Machine

/-! # The micro-operations implement `invert_ref`

The stores before each column hold the grids of the reference (41_inverter.md R108): each column's micro-operations are
one turn of its outer loop, and their number is what that turn counts in R117. -/

namespace Sys2Proof.Machine

/-! ## The reference's columns -/

/-- The reference's row exchange, in both grids. -/
def RefState.exchange (p j : Nat) (st : RefState) : RefState :=
  { st with working := refSwap p j st.working, companion := refSwap p j st.companion }

/-- The reference's inner loop, on both grids. -/
def RefState.eliminate (n j : Nat) (st : RefState) : RefState :=
  { st with
    working := (refEliminate j (List.range n) (st.working, st.companion)).1
    companion := (refEliminate j (List.range n) (st.working, st.companion)).2 }

theorem refColumn_of_some {st : RefState} {n j p : Nat} (policy : SingPolicy) (h : refPivot st.working n j = some p) :
    refColumn n policy st j = { (st.exchange p j).eliminate n j with pivots := st.pivots + 1 } := by
  simp only [refColumn, h]
  rfl

theorem refColumn_skip {st : RefState} {n j : Nat} (h : refPivot st.working n j = none) :
    refColumn n .skip st j = { st with invertible := false } := by
  simp only [refColumn, h]

theorem refColumn_degenerate {st : RefState} {n j : Nat} (h : refPivot st.working n j = none) :
    refColumn n .degenerate st j = { st.eliminate n j with invertible := false } := by
  simp only [refColumn, h]
  rfl

/-- The outer loop from column `j` on. -/
def refColumnsFrom (n : Nat) (policy : SingPolicy) (j : Nat) (st : RefState) : RefState :=
  (List.range' j (n - j)).foldl (refColumn n policy) st

theorem refColumnsFrom_of_lt {n j : Nat} (policy : SingPolicy) (st : RefState) (h : j < n) :
    refColumnsFrom n policy j st = refColumnsFrom n policy (j + 1) (refColumn n policy st j) := by
  rw [refColumnsFrom, show n - j = n - (j + 1) + 1 by omega, List.range'_succ, List.foldl_cons]
  rfl

theorem refColumnsFrom_self (n : Nat) (policy : SingPolicy) (st : RefState) : refColumnsFrom n policy n st = st := by
  simp [refColumnsFrom]

theorem refRun_eq_refColumnsFrom (m : Grid) (n : Nat) (policy : SingPolicy) :
    refRun m n policy = refColumnsFrom n policy 0
      { working := m, companion := identityGrid n, invertible := true, pivots := 0 } := by
  rw [refRun, refColumnsFrom, List.range_eq_range', Nat.sub_zero]

/-- A grid as a payload in the format of the operation (40_codec.md R95). -/
def gridPayload (op : InvOp) (g : Grid) : List Item :=
  match op with
  | .invg => gridItems g
  | .invp => packGridItems g

/-- The response to an inversion that the reference ends in this state. -/
def RefState.response (op : InvOp) (strict : Bool) (st : RefState) : Response :=
  resultResponse strict st.invertible (gridPayload op st.companion)

theorem refResponse_eq (op : InvOp) (strict : Bool) (m : Grid) (n : Nat) (policy : SingPolicy) :
    refResponse op strict m n policy = (refRun m n policy).response op strict := by
  cases op <;> rfl

/-! ## The count of micro-operations -/

/-- The micro-operations of `cols` columns of which `f` have a pivot: M_PIVOT and M_NEXT of each, M_SWAP and M_ELIM of those,
and under DEGENERATE the M_ELIM of the others (41_inverter.md R117). -/
def columnSteps (policy : SingPolicy) (cols f : Nat) : Nat :=
  2 * cols + 2 * f + match policy with
    | .skip => 0
    | .degenerate => cols - f

theorem columnSteps_add {policy : SingPolicy} {a f b g : Nat} (hf : f ≤ a) (hg : g ≤ b) :
    columnSteps policy a f + columnSteps policy b g = columnSteps policy (a + b) (f + g) := by
  cases policy <;> simp only [columnSteps] <;> omega

/-- A column with a pivot takes four micro-operations, whatever the policy. -/
theorem columnSteps_one_one (policy : SingPolicy) : columnSteps policy 1 1 = 4 := by
  cases policy <;> rfl

theorem columnSteps_le {policy : SingPolicy} {cols f : Nat} (hf : f ≤ cols) : columnSteps policy cols f ≤ 4 * cols := by
  cases policy <;> simp only [columnSteps] <;> omega

theorem microOpCount_eq (m : Grid) (n : Nat) (policy : SingPolicy) :
    microOpCount m n policy = columnSteps policy n (refRun m n policy).pivots + 2 := by
  cases policy <;> simp only [microOpCount, columnSteps] <;> omega

/-! ## The micro-operation of each phase -/

section MicroStep

variable {s : State}

theorem microStep_of_init (hp : s.ph = .init) : s.microStep = s.initStep := by rw [State.microStep, hp]

theorem microStep_of_pivot (hp : s.ph = .pivot) : s.microStep = s.pivotStep := by rw [State.microStep, hp]

theorem microStep_of_swap (hp : s.ph = .swap) : s.microStep = s.swapStep := by rw [State.microStep, hp]

theorem microStep_of_elim (hp : s.ph = .elim) : s.microStep = s.elimStep := by rw [State.microStep, hp]

theorem microStep_of_next (hp : s.ph = .next) : s.microStep = s.nextStep := by rw [State.microStep, hp]

theorem microStep_of_fin (hp : s.ph = .fin) : s.microStep = s.finStep := by rw [State.microStep, hp]

end MicroStep

/-! ## Where a command in progress ends -/

/-- A step of a busy block is one more step of its completion. -/
theorem CompletesIn.of_busy {s t : State} {k : Nat} (hb : s.Busy) (h : CompletesIn s.microStep t k) :
    CompletesIn s t (k + 1) := by
  obtain ⟨hrun, hidle, hbefore⟩ := h
  have hs := step_of_busy hb
  refine ⟨by rw [runFor_succ_of_step hs, hrun], hidle, fun m hm => ?_⟩
  cases m with
  | zero => simpa [runFor] using hb
  | succ m => rw [runFor_succ_of_step hs, hbefore m (by omega)]

/-- The command in progress in `s` completes in `t` after `k` steps, with the results and the response of the reference state
`final`. -/
structure EndsAs (s t : State) (final : RefState) (k : Nat) : Prop where
  completes : CompletesIn s t k
  companion : storeGrid s.dim t.C = final.companion
  inv : t.inv = final.invertible
  requests : t.requests = s.requests
  responses : t.responses = s.responses ++ [final.response s.cmdr.op s.cmdr.strict]

/-- A micro-operation before M_FIN comes first, and answers nothing. -/
theorem EndsAs.of_phase {s u t : State} {ph : Phase} {final : RefState} {k : Nat} (hw : s.Wf) (hp : s.ph = ph)
    (hph : ph ≠ .idle ∧ ph ≠ .fin) (hu : s.microStep = u) (h : EndsAs u t final k) : EndsAs s t final (k + 1) := by
  have hb : s.Busy := busy_of_ph hp hph.1
  obtain ⟨hq, hr, -, -⟩ := microStep_goes_on hw hb (hp ▸ hph.2)
  obtain ⟨-, constant⟩ := commandIsConstantWhileBusy s s.microStep (step_of_busy hb)
  obtain ⟨hm, -⟩ := constant hb
  subst hu
  have hdim : s.microStep.dim = s.dim := by rw [State.dim, hm]
  exact ⟨h.completes.of_busy hb, hdim ▸ h.companion, h.inv, h.requests.trans hq, by rw [h.responses, hr, hm]⟩

/-! ## The reference state of the stores -/

/-- The reference state that the stores hold, when `f` columns so far had a pivot. -/
def State.refState (s : State) (f : Nat) : RefState :=
  { working := storeGrid s.dim s.W, companion := storeGrid s.dim s.C, invertible := s.inv, pivots := f }

theorem refState_pivotStep (s : State) (f : Nat) :
    s.pivotStep.refState f =
      { s.refState f with invertible := s.inv && (findPivot s.W s.dim s.j.toNat).isSome } := rfl

section Column

variable {s : State} (hw : s.Wf)
include hw

/-- M_INIT sets up the reference's grids (41_inverter.md R101, R108). -/
theorem refState_initStep (hp : s.ph = .init) :
    s.initStep.refState 0 = { working := s.input, companion := identityGrid s.dim, invertible := true, pivots := 0 } := by
  have rows : ∀ i < s.dim, ∀ k < s.dim, readBit s.initStep.W i k = entry s.input i k ∧
      readBit s.initStep.C i k = decide (i = k) := by
    intro i hi k hk
    obtain ⟨hW, hC⟩ := hw.readRow_initStep hp hi
    rw [readBit, hW, hw.testBit_loadItem (busy_of_ph hp (by decide)) hi hk, readBit, hC, Nat.one_shiftLeft,
      Nat.testBit_two_pow]
    exact ⟨rfl, rfl⟩
  have working : storeGrid s.dim s.initStep.W = s.input :=
    (gridOf_eq_iff _ _ _).2 fun i hi k hk => (rows i hi k hk).1.trans (entry_gridOf _ hi hk)
  have companion : storeGrid s.dim s.initStep.C = identityGrid s.dim :=
    (gridOf_eq_iff _ _ _).2 fun i hi k hk => (rows i hi k hk).2
  rw [← working, ← companion]
  rfl

theorem refState_swapStep (hp : s.ph = .swap) (f : Nat) :
    s.swapStep.refState f = (s.refState f).exchange s.p.toNat s.j.toNat := by
  have hj := hw.j_lt (loaded_of_ph hp (by decide))
  obtain ⟨-, hpn, -⟩ := hw.pivot_row hp
  obtain ⟨hW, hC⟩ := hw.dim_le_length (busy_of_ph hp (by decide))
  simp only [State.refState, RefState.exchange, refSwap_storeGrid hW hpn hj, refSwap_storeGrid hC hpn hj]
  rfl

theorem refState_elimStep (hp : s.ph = .elim) (f : Nat) :
    s.elimStep.refState f = (s.refState f).eliminate s.dim s.j.toNat := by
  have loop := eliminationOrderDoesNotMatter s (List.range s.dim) hw hp (List.Perm.refl _)
  simp only [State.refState, RefState.eliminate, loop]
  rfl

end Column

/-! ## One column -/

/-- From M_PIVOT of a column the sequencer comes to M_NEXT in `u`, with the grids after the reference's turn; `c` is 1 where
the column had a pivot, and 0 where it had none. -/
structure ColumnRun (s u : State) (f c : Nat) : Prop where
  wf : u.Wf
  ph : u.ph = .next
  j : u.j = s.j
  cmdr : u.cmdr = s.cmdr
  cfg : u.cfg = s.cfg
  grids : u.refState (f + c) = refColumn s.dim s.cfg.policy (s.refState f) s.j.toNat
  steps : ∀ {t : State} {final : RefState} {k : Nat}, EndsAs u.nextStep t final k →
    EndsAs s t final (k + columnSteps s.cfg.policy 1 c)

section ColumnRuns

variable {s : State} (hw : s.Wf) (hp : s.ph = .pivot) (f : Nat)
include hw hp

theorem refPivot_refState :
    refPivot (s.refState f).working s.dim s.j.toNat = findPivot s.W s.dim s.j.toNat :=
  refPivot_storeGrid _ (hw.j_lt (loaded_of_ph hp (by decide)))

/-- A column with a pivot: M_PIVOT, M_SWAP, M_ELIM. -/
theorem columnRun_of_some {i : Nat} (hi : findPivot s.W s.dim s.j.toNat = some i) :
    ColumnRun s s.pivotStep.swapStep.elimStep f 1 := by
  have hs : s.pivotStep.ph = .swap := by
    rw [State.pivotStep_ph, phaseAfterScan_eq_swap_iff]
    exact Option.isSome_iff_exists.2 ⟨i, hi⟩
  have wfPivot := (StepsTo.pivot hp).keeps_wf hw
  have wfSwap := (StepsTo.swap hs).keeps_wf wfPivot
  have wfElim := (StepsTo.elim (s := s.pivotStep.swapStep) rfl).keeps_wf wfSwap
  have row : s.pivotStep.p.toNat = i := by
    rw [State.pivotStep_p, hi]
    exact toNat_pivot hi
  refine ⟨wfElim, rfl, rfl, rfl, rfl, ?_, fun h => ?_⟩
  · rw [refState_elimStep wfSwap rfl, refState_swapStep wfPivot hs, row,
      refColumn_of_some _ ((refPivot_refState hw hp f).trans hi), refState_pivotStep, hi, Option.isSome_some, Bool.and_true]
    rfl
  · have next := h.of_phase (ph := .next) wfElim rfl (by decide) (microStep_of_next rfl)
    have elim := next.of_phase (ph := .elim) wfSwap rfl (by decide) (microStep_of_elim rfl)
    have swap := elim.of_phase wfPivot hs (by decide) (microStep_of_swap hs)
    rw [columnSteps_one_one]
    exact swap.of_phase hw hp (by decide) (microStep_of_pivot hp)

/-- A column without a pivot under SKIP: M_PIVOT alone. -/
theorem columnRun_skip (hn : findPivot s.W s.dim s.j.toNat = none) (hpol : s.cfg.policy = .skip) :
    ColumnRun s s.pivotStep f 0 := by
  have hs : s.pivotStep.ph = .next := by simp [hn, hpol, phaseAfterScan]
  have wf := (StepsTo.pivot hp).keeps_wf hw
  refine ⟨wf, hs, rfl, rfl, rfl, ?_, fun h => ?_⟩
  · rw [hpol, refColumn_skip ((refPivot_refState hw hp f).trans hn)]
    rw [refState_pivotStep, hn, Option.isSome_none, Bool.and_false]
    rfl
  · have next := h.of_phase wf hs (by decide) (microStep_of_next hs)
    simpa [columnSteps, hpol] using next.of_phase hw hp (by decide) (microStep_of_pivot hp)

/-- A column without a pivot under DEGENERATE: M_PIVOT and M_ELIM. -/
theorem columnRun_degenerate (hn : findPivot s.W s.dim s.j.toNat = none) (hpol : s.cfg.policy = .degenerate) :
    ColumnRun s s.pivotStep.elimStep f 0 := by
  have hs : s.pivotStep.ph = .elim := by simp [hn, hpol, phaseAfterScan]
  have wfPivot := (StepsTo.pivot hp).keeps_wf hw
  have wfElim := (StepsTo.elim hs).keeps_wf wfPivot
  refine ⟨wfElim, rfl, rfl, rfl, rfl, ?_, fun h => ?_⟩
  · rw [refState_elimStep wfPivot hs, hpol, refColumn_degenerate ((refPivot_refState hw hp f).trans hn)]
    rw [refState_pivotStep, hn, Option.isSome_none, Bool.and_false]
    rfl
  · have next := h.of_phase (ph := .next) wfElim rfl (by decide) (microStep_of_next rfl)
    have elim := next.of_phase wfPivot hs (by decide) (microStep_of_elim hs)
    simpa [columnSteps, hpol] using elim.of_phase hw hp (by decide) (microStep_of_pivot hp)

theorem exists_columnRun : ∃ u c, c ≤ 1 ∧ ColumnRun s u f c := by
  cases hf : findPivot s.W s.dim s.j.toNat with
  | some i => exact ⟨_, 1, le_rfl, columnRun_of_some hw hp f hf⟩
  | none =>
    cases hpol : s.cfg.policy with
    | skip => exact ⟨_, 0, Nat.zero_le 1, columnRun_skip hw hp f hf hpol⟩
    | degenerate => exact ⟨_, 0, Nat.zero_le 1, columnRun_degenerate hw hp f hf hpol⟩

end ColumnRuns

/-! ## M_FIN -/

theorem map_toNat_rowBits (n r : Nat) : (rowBits n r).map Bool.toNat = unpackSeq r n := by
  simp [rowBits, unpackSeq]

/-- M_FIN makes the payload from the rows of `C` (41_inverter.md R106). -/
theorem map_storeItem_eq_gridPayload {n : Nat} {comp : List Nat} (op : InvOp) (h : ∀ i < n, readRow comp i < 2 ^ n) :
    ((List.range n).map fun i => storeItem op n (readRow comp i)) = gridPayload op (storeGrid n comp) := by
  have grid : storeGrid n comp = (List.range n).map fun i => rowBits n (readRow comp i) := rfl
  cases op with
  | invg => simp [grid, gridPayload, gridItems, map_toNat_rowBits, storeItem]
  | invp =>
    obtain ⟨pack, -⟩ := codecRoundTrip
    simp only [grid, gridPayload, packGridItems, List.map_map]
    refine List.map_congr_left fun i hi => ?_
    simp [map_toNat_rowBits, storeItem, pack n _ (h i (List.mem_range.1 hi))]

theorem inversionResponse_eq_response {s : State} (hw : s.Wf) (hp : s.ph = .fin) (f : Nat) :
    inversionResponse s.cmdr.op s.cmdr.strict s.inv s.dim s.C = (s.refState f).response s.cmdr.op s.cmdr.strict := by
  have payload := map_storeItem_eq_gridPayload s.cmdr.op fun i hi =>
    (hw.highBitsZero (loaded_of_ph hp (by decide)) i hi).2
  have status : stsInverse s.inv = if s.inv then 0x3 else 0x1 := by cases s.inv <;> rfl
  rw [inversionResponse, payload, status]
  rfl

theorem endsAs_finStep {s : State} (hw : s.Wf) (hp : s.ph = .fin) (f : Nat) : EndsAs s s.finStep (s.refState f) 1 := by
  have last : CompletesIn s.microStep s.finStep 0 := by
    rw [microStep_of_fin hp]
    exact ⟨rfl, rfl, nofun⟩
  refine ⟨last.of_busy (busy_of_ph hp (by decide)), rfl, rfl, rfl, ?_⟩
  rw [State.finStep_responses, inversionResponse_eq_response hw hp f]

/-! ## The whole loop -/

/-- From M_PIVOT with `m + 1` columns to go, by induction on `m`. -/
theorem exists_endsAs_of_pivot (m : Nat) {s : State} (f : Nat) (hw : s.Wf) (hp : s.ph = .pivot)
    (hm : s.j.toNat + (m + 1) = s.dim) :
    ∃ t g, g ≤ m + 1 ∧ (refColumnsFrom s.dim s.cfg.policy s.j.toNat (s.refState f)).pivots = f + g ∧
      EndsAs s t (refColumnsFrom s.dim s.cfg.policy s.j.toNat (s.refState f)) (columnSteps s.cfg.policy (m + 1) g + 1) := by
  induction m generalizing s f with
  | zero =>
    obtain ⟨u, c, hc, col⟩ := exists_columnRun hw hp f
    have hdim : u.dim = s.dim := by rw [State.dim, col.cmdr]
    have hn : u.nextStep = u.toPhase .fin := State.nextStep_of_not_lt (by rw [hdim, col.j]; omega)
    have wf := (StepsTo.next col.ph).keeps_wf col.wf
    have fin := endsAs_finStep (hn ▸ wf) rfl (f + c)
    rw [refColumnsFrom_of_lt _ _ (by omega), hm, refColumnsFrom_self, ← col.grids]
    refine ⟨(u.toPhase .fin).finStep, c, hc, rfl, ?_⟩
    rw [Nat.add_comm (columnSteps _ _ _)]
    exact col.steps (by rw [hn]; exact fin)
  | succ m ih =>
    obtain ⟨u, c, hc, col⟩ := exists_columnRun hw hp f
    have hdim : u.dim = s.dim := by rw [State.dim, col.cmdr]
    have hlt : u.j.toNat + 1 < u.dim := by rw [hdim, col.j]; omega
    have hn := State.nextStep_of_lt hlt
    have wf := (StepsTo.next col.ph).keeps_wf col.wf
    have hj : u.nextStep.j.toNat = s.j.toNat + 1 := by rw [hn, ← col.j]; exact toNat_add_one hlt
    have hd : u.nextStep.dim = s.dim := by rw [State.dim, State.nextStep_cmdr, col.cmdr]
    have hrest : u.nextStep.j.toNat + (m + 1) = u.nextStep.dim := by omega
    obtain ⟨t, g, hg, hpiv, ends⟩ := ih (f + c) wf (by rw [hn]) hrest
    have grids : u.nextStep.refState (f + c) = refColumn s.dim s.cfg.policy (s.refState f) s.j.toNat := by
      rw [← col.grids, hn]
      rfl
    rw [State.nextStep_cfg, col.cfg, hd, hj, grids, ← refColumnsFrom_of_lt _ _ (by omega)] at hpiv ends
    refine ⟨t, g + c, by omega, by omega, ?_⟩
    rw [← columnSteps_add hg hc, Nat.add_right_comm]
    exact col.steps ends

/-- From acceptance to IDLE the sequencer runs the reference, in as many steps as 41_inverter.md R117 counts. -/
theorem exists_endsAs_refRun {s : State} (hw : s.Wf) (hp : s.ph = .init) :
    ∃ t, EndsAs s t (refRun s.input s.dim s.cfg.policy) (microOpCount s.input s.dim s.cfg.policy) ∧
      (refRun s.input s.dim s.cfg.policy).pivots ≤ s.dim := by
  have hb := busy_of_ph hp (by decide)
  obtain ⟨m, hm⟩ := Nat.exists_eq_add_of_le' (hw.one_le_dim hb)
  obtain ⟨t, g, hg, hpiv, ends⟩ := exists_endsAs_of_pivot (s := s.initStep) m 0 ((StepsTo.init hp).keeps_wf hw) rfl
    ((Nat.zero_add _).trans hm.symm)
  have run : refColumnsFrom s.initStep.dim s.initStep.cfg.policy s.initStep.j.toNat (s.initStep.refState 0) =
      refRun s.input s.dim s.cfg.policy := by
    rw [refState_initStep hw hp, refRun_eq_refColumnsFrom]
    rfl
  rw [run] at hpiv ends
  rw [State.initStep_cfg, ← hm] at ends
  obtain rfl : (refRun s.input s.dim s.cfg.policy).pivots = g := by rw [hpiv, Nat.zero_add]
  refine ⟨t, ?_, hm ▸ hg⟩
  rw [microOpCount_eq]
  exact ends.of_phase hw hp (by decide) (microStep_of_init hp)

/-- Settles O44: the reference has at most one pivot for each column. -/
theorem inversionTerminatesInCountedSteps : Obligations.InversionTerminatesInCountedSteps := by
  intro s hw hp
  obtain ⟨t, ends, hf⟩ := exists_endsAs_refRun hw hp
  rw [microOpCount_eq] at ends ⊢
  exact ⟨⟨t, ends.completes⟩, Nat.add_le_add_right (columnSteps_le hf) 2⟩

/-- Settles O45: the state in which the command ends holds what the reference returns. -/
theorem sequencerRefinesInvertRef : Obligations.SequencerRefinesInvertRef := by
  intro s hw hp
  obtain ⟨t, ends, -⟩ := exists_endsAs_refRun hw hp
  exact ⟨t, _, ends.completes, ends.companion, ends.inv, ends.requests, by rw [refResponse_eq, ends.responses]⟩

end Sys2Proof.Machine

/-! # The policy

A run of the reference that keeps `invertible` found a pivot in every column, and never asked for the policy
(41_inverter.md R113). -/

namespace Sys2Proof.Machine

/-- A column that leaves `invertible` at 1 had a pivot, and is the same under both policies. -/
theorem refColumn_of_invertible {n j : Nat} {p : SingPolicy} {st : RefState} (q : SingPolicy)
    (h : (refColumn n p st j).invertible = true) : st.invertible = true ∧ refColumn n q st j = refColumn n p st j := by
  cases hp : refPivot st.working n j with
  | some i =>
    rw [refColumn_of_some p hp] at h ⊢
    exact ⟨h, refColumn_of_some q hp⟩
  | none =>
    cases p
    · simp [refColumn_skip hp] at h
    · simp [refColumn_degenerate hp] at h

theorem refRun_of_invertible {m : Grid} {n : Nat} {p : SingPolicy} (q : SingPolicy)
    (h : (refRun m n p).invertible = true) : refRun m n q = refRun m n p := by
  have columns : ∀ (js : List Nat) (st : RefState), (js.foldl (refColumn n p) st).invertible = true →
      js.foldl (refColumn n q) st = js.foldl (refColumn n p) st := by
    intro js st
    induction js using List.reverseRecOn with
    | nil => exact fun _ => rfl
    | append_singleton js j ih =>
      simp only [List.foldl_append, List.foldl_cons, List.foldl_nil]
      intro h
      obtain ⟨hst, hcol⟩ := refColumn_of_invertible q h
      rw [ih hst, hcol]
  exact columns _ _ h

theorem refRun_invertible_eq (m : Grid) (n : Nat) (p q : SingPolicy) :
    (refRun m n q).invertible = (refRun m n p).invertible := by
  rw [Bool.eq_iff_iff]
  exact ⟨fun h => by rwa [refRun_of_invertible p h], fun h => by rwa [refRun_of_invertible q h]⟩

/-- The block with another policy. -/
def State.withPolicy (s : State) (policy : SingPolicy) : State := { s with cfg := { s.cfg with policy := policy } }

/-- The invariant does not read the policy. -/
theorem State.Wf.withPolicy {s : State} (hw : s.Wf) (policy : SingPolicy) : (s.withPolicy policy).Wf := hw

/-- Settles O50: both runs are those of the reference, which reads the policy only once `INV` is 0. -/
theorem policyChangesOnlyTheUntrustedPayload : Obligations.PolicyChangesOnlyTheUntrustedPayload := by
  intro s policy hw hp
  obtain ⟨t, ends, -⟩ := exists_endsAs_refRun hw hp
  obtain ⟨t', ends', -⟩ := exists_endsAs_refRun (hw.withPolicy policy) hp
  refine ⟨t, _, t', _, ends.completes, ends'.completes, ?_, fun hinv => ?_⟩
  · rw [ends.inv, ends'.inv]
    exact refRun_invertible_eq _ _ _ _
  · have run : refRun s.input s.dim policy = refRun s.input s.dim s.cfg.policy :=
      refRun_of_invertible policy (ends.inv ▸ hinv)
    rw [ends.responses, ends'.responses, ← run]
    rfl

end Sys2Proof.Machine

/-! # INVG from offer to response -/

namespace Sys2Proof.Machine

/-! ## The input grid of an offered grid -/

theorem gridRow_gridOf {n i : Nat} (f : Nat → Nat → Bool) (hi : i < n) :
    gridRow (gridOf n f) i = (List.range n).map (f i) := by
  simp [gridRow, gridOf, hi]

theorem IsGrid.length_gridRow {n i : Nat} {g : Grid} (hg : IsGrid n g) (hi : i < n) : (gridRow g i).length = n := by
  obtain ⟨hlen, hrow⟩ := hg
  have hi : i < List.length g := hlen.symm ▸ hi
  rw [gridRow, List.getElem?_eq_getElem hi]
  exact hrow _ (List.getElem_mem hi)

/-- A grid is put together again from its entries. -/
theorem gridOf_entry {n : Nat} {g : Grid} (hg : IsGrid n g) : gridOf n (entry g) = g := by
  have hlen : (gridOf n (entry g)).length = n := by simp [gridOf]
  refine grid_ext (hlen.trans hg.1.symm) fun i hi => ?_
  rw [hlen] at hi
  rw [gridRow_gridOf _ hi]
  refine List.ext_getElem (by simp [hg.length_gridRow hi]) fun k _ hk => ?_
  simp [entry, hk]

/-- The grid that M_INIT reads is the one in the request (10_state.md R24, R42). -/
theorem inputGrid_latchItems {c : Config} {op : InvOp} {n : Dim} {payload ib : List Item}
    (ha : AdmitsInversion c op n payload) (hb : ib.length = c.nMax) :
    inputGrid op n.toNat (latchItems n.toNat payload ib) = inputGrid op n.toNat payload :=
  (gridOf_eq_iff _ _ _).2 fun i hi k _ => by rw [latchItems_of_admits ha hb hi]

/-- INVG reads a cell that is a bit as that bit. -/
theorem itemBit_map_toNat (row : List Bool) (k : Nat) :
    itemBit .invg k (.cells (row.map Bool.toNat)) = (row[k]?).getD false := by
  simp only [itemBit, asCells, Option.getD_some, List.getElem?_map]
  cases row[k]? with
  | none => rfl
  | some b => cases b <;> rfl

theorem inputGrid_gridItems {n : Nat} {g : Grid} (hg : IsGrid n g) : inputGrid .invg n (gridItems g) = g := by
  refine .trans ((gridOf_eq_iff _ _ _).2 fun i _ k _ => ?_) (gridOf_entry hg)
  cases hr : g[i]? with
  | none => simp [gridItems, entry, gridRow, hr]
  | some row => simp [gridItems, entry, gridRow, hr, itemBit_map_toNat]

/-- Bit sequences of a grid are legal items of INVG. -/
theorem admitsInversion_gridItems {c : Config} {n : Dim} {g : Grid} (hn : Dim.WellFormed c n) (hg : IsGrid n.toNat g) :
    AdmitsInversion c .invg n (gridItems g) := by
  obtain ⟨hlen, hrow⟩ := hg
  refine ⟨hn, by simpa [gridItems] using hlen, fun it hit => ?_⟩
  obtain ⟨row, hmem, rfl⟩ := List.mem_map.1 hit
  refine (itemLegal_invg_iff _ _).2 ⟨_, rfl, by simpa using hrow row hmem, fun c hc => ?_⟩
  obtain ⟨b, -, rfl⟩ := List.mem_map.1 hc
  exact Bool.toNat_lt b

/-- The run from the acceptance of an admitted inversion to the response of the reference (41_inverter.md R108). -/
theorem exists_run_of_latch {s : State} {r : Request} {rest : List Request} {op : InvOp} {n : Dim} {strict : Bool}
    (hw : s.Wf) (ho : s.Offers r rest) (ha : AdmitsInversion s.cfg op n r.payload)
    (hs : step s = .next (s.takeRequest.latch op strict n r.payload)) :
    ∃ t k, runFor k s = some t ∧ t.ph = .idle ∧ t.requests = rest ∧
      t.responses = s.responses ++ [refResponse op strict (inputGrid op n.toNat r.payload) n.toNat s.cfg.policy] := by
  obtain ⟨t, ends, -⟩ := exists_endsAs_refRun ((stepsTo_of_step hs).keeps_wf hw) rfl
  obtain ⟨hrun, hidle, -⟩ := ends.completes
  have input : (s.takeRequest.latch op strict n r.payload).input = inputGrid op n.toNat r.payload :=
    inputGrid_latchItems ha hw.length_IB
  refine ⟨t, _, (runFor_succ_of_step hs _).trans hrun, hidle, ?_, ?_⟩
  · rw [ends.requests, State.latch_requests, State.takeRequest_requests, ho.2, List.tail_cons]
  · rw [ends.responses, input, refResponse_eq]
    rfl

/-- Settles O47: the grid is admitted, M_INIT reads it back, and the sequencer runs the reference. -/
theorem invgCommandAnswersInvertRef : Obligations.InvgCommandAnswersInvertRef := by
  intro s r rest n strict g hw ho hd hn hg hpay
  have admitted : AdmitsInversion s.cfg .invg n r.payload := hpay ▸ admitsInversion_gridItems hn hg
  have fits : payloadFits s.cfg r.payload = true := hw.requestsFit r (by simp [ho.2])
  have latched := (step_of_decodes ho hd).trans (exec_invg_of_admits strict ho fits admitted)
  have run := exists_run_of_latch hw ho admitted latched
  rwa [hpay, inputGrid_gridItems hg] at run

end Sys2Proof.Machine

/-! # The packed pipeline: INVP, and the codec's commands in a row

INVP on packed rows and INVG on their bit sequences give M_INIT the same grid, so both commands are one run of the
reference (42_pipeline.md R130, R131). -/

namespace Sys2Proof.Machine

/-! ## The acceptance of INVP -/

/-- An admitted INVP is latched, whatever its word (42_pipeline.md R130). -/
theorem exec_invp_of_admits {s : State} {r : Request} {rest : List Request} {n : Dim} (strict : Bool)
    (ho : s.Offers r rest) (hf : payloadFits s.cfg r.payload = true) (ha : AdmitsInversion s.cfg .invp n r.payload) :
    exec (.invp n strict) s = .next (s.takeRequest.latch .invp strict n r.payload) := by
  have start : invpVerdict s.cfg n strict r.payload = .start .invp strict := by
    obtain ⟨-, -, hv⟩ | ⟨hbad, -⟩ := invpVerdict_cases s.cfg n strict r.payload
    · exact hv
    · exact absurd ⟨ha.length, List.all_eq_true.2 ha.items⟩ (hbad.resolve_left (not_not.2 ha.dimension))
  exact (accept_of_offer n (invpVerdict s.cfg n strict) ho.1 ho.2 hf).trans (by rw [start, State.conclude_start])

/-- Settles O21: packed rows are admitted, and acceptance latches them. -/
theorem invpIsLatched : Obligations.InvpIsLatched := by
  intro s w rest n strict rows ho hI hn hlen hrows
  have admitted : AdmitsInversion s.cfg .invp n (rows.map .row) := admitsInversion_map_row id hn hlen
  refine ⟨latchItems n.toNat (rows.map .row) s.IB, ?_, fun i hi => ?_, fun i hi => ?_⟩
  · rw [exec_invp_of_admits strict ho (payloadFits_map_row id hrows) admitted]
    simp [State.takeRequest, State.latch, ho.2]
  · rw [latchItems_of_admits admitted hI hi, List.getElem?_map]
  · simp [latchItems_getElem?, Nat.not_lt.2 hi]

/-! ## The unpacked grid -/

theorem isGrid_unpackGrid {n : Nat} {rows : List Nat} (hlen : rows.length = n) : IsGrid n (unpackGrid n rows) := by
  refine ⟨by simpa [unpackGrid] using hlen, fun row hrow => ?_⟩
  obtain ⟨r, -, rfl⟩ := List.mem_map.1 hrow
  simp

/-- The entries of the unpacked grid are the bits of the packed rows (40_codec.md R95). -/
theorem entry_unpackGrid {n i k : Nat} {rows : List Nat} (hi : i < rows.length) (hk : k < n) :
    entry (unpackGrid n rows) i k = ((rows[i]?).getD 0).testBit k := by
  simp [entry, gridRow, unpackGrid, hi, hk]

/-- INVP reads the unpacked grid from the packed rows. -/
theorem inputGrid_map_row {n : Nat} {rows : List Nat} (hlen : rows.length = n) :
    inputGrid .invp n (rows.map .row) = unpackGrid n rows := by
  refine .trans ((gridOf_eq_iff _ _ _).2 fun i hi k hk => ?_) (gridOf_entry (isGrid_unpackGrid hlen))
  have hi : i < rows.length := hlen.symm ▸ hi
  simp [entry_unpackGrid hi hk, itemBit, asRow, hi]

/-- The unpacked grid as a payload is what UNPACK makes of each row (42_pipeline.md R131). -/
theorem gridItems_unpackGrid (n : Nat) (rows : List Nat) : gridItems (unpackGrid n rows) = rows.map (unpackItem n) := by
  simp only [gridItems, unpackGrid, List.map_map]
  exact List.map_congr_left fun r _ => congrArg Item.cells (map_toNat_rowBits n r)

theorem payloadFits_map_unpackItem {c : Config} (hc : c.WellFormed) (n : Nat) (rows : List Nat) :
    payloadFits c (rows.map (unpackItem n)) = true := by
  refine List.all_eq_true.2 fun it hit => ?_
  obtain ⟨r, -, rfl⟩ := List.mem_map.1 hit
  simpa [payloadFits, unpackItem] using payloadFits_cells hc (unpackSeq_lt_two r n)

/-! ## From offer to response -/

/-- The run of `exists_run_of_latch` with its length, which the input grid fixes (41_inverter.md R117). -/
theorem exists_counted_run_of_latch {s : State} {r : Request} {rest : List Request} {op : InvOp} {n : Dim} {strict : Bool}
    {g : Grid} (hw : s.Wf) (ho : s.Offers r rest) (ha : AdmitsInversion s.cfg op n r.payload)
    (hg : inputGrid op n.toNat r.payload = g) (hs : step s = .next (s.takeRequest.latch op strict n r.payload)) :
    ∃ t, runFor (microOpCount g n.toNat s.cfg.policy + 1) s = some t ∧ t.ph = .idle ∧ t.requests = rest ∧
      t.responses = s.responses ++ [refResponse op strict g n.toNat s.cfg.policy] := by
  obtain ⟨t, ends, -⟩ := exists_endsAs_refRun ((stepsTo_of_step hs).keeps_wf hw) rfl
  have input : (s.takeRequest.latch op strict n r.payload).input = g := (inputGrid_latchItems ha hw.length_IB).trans hg
  rw [input] at ends
  obtain ⟨hrun, hidle, -⟩ := ends.completes
  refine ⟨t, (runFor_succ_of_step hs _).trans hrun, hidle, ?_, ?_⟩
  · rw [ends.requests, State.latch_requests, State.takeRequest_requests, ho.2, List.tail_cons]
  · rw [ends.responses, refResponse_eq]
    rfl

/-- Settles O46: the rows are admitted, M_INIT reads the unpacked grid, and the sequencer runs the reference. -/
theorem invpCommandAnswersInvertRef : Obligations.InvpCommandAnswersInvertRef := by
  intro s r rest n strict rows hw ho hd hn hpay hlen
  have admitted : AdmitsInversion s.cfg .invp n r.payload := hpay ▸ admitsInversion_map_row id hn hlen
  have fits : payloadFits s.cfg r.payload = true := hw.requestsFit r (by simp [ho.2])
  have latched := (step_of_decodes ho hd).trans (exec_invp_of_admits strict ho fits admitted)
  have run := exists_run_of_latch hw ho admitted latched
  rwa [hpay, inputGrid_map_row hlen] at run

/-- Both formats of the reference's response hold one list of bit sequences: the cells of INVG, packed for INVP. -/
theorem exists_refResponse_formats (strict : Bool) (m : Grid) (n : Nat) (policy : SingPolicy) :
    ∃ (sts : StsWord) (out : List (List Nat)),
      refResponse .invg strict m n policy = { sts := sts, payload := out.map .cells } ∧
      refResponse .invp strict m n policy = { sts := sts, payload := out.map fun cs => .row (packSeq cs) } := by
  cases hfail : strict && !(invertRef m n policy).2 with
  | true => exact ⟨0x30, [], by simp [refResponse, resultResponse, hfail], by simp [refResponse, resultResponse, hfail]⟩
  | false =>
    exact ⟨if (invertRef m n policy).2 then 0x3 else 0x1, (invertRef m n policy).1.map (·.map Bool.toNat),
      by simp [refResponse, resultResponse, hfail, gridItems, Function.comp_def],
      by simp [refResponse, resultResponse, hfail, packGridItems, Function.comp_def]⟩

/-- Settles O48: both requests give M_INIT the unpacked grid, and the two responses are one result in two formats. -/
theorem packedFlowIsTheComposition : Obligations.PackedFlowIsTheComposition := by
  rintro s rest n strict rows hw hi rfl hn hlen hfit
  have hg := isGrid_unpackGrid hlen
  have fitsPacked : payloadFits s.cfg (rows.map .row) = true := payloadFits_map_row id hfit
  have fitsUnpacked := payloadFits_map_unpackItem hw.cfgWf n.toNat rows
  have packed : AdmitsInversion s.cfg .invp n (rows.map .row) := admitsInversion_map_row id hn hlen
  have unpacked : AdmitsInversion s.cfg .invg n (rows.map (unpackItem n.toNat)) :=
    gridItems_unpackGrid n.toNat rows ▸ admitsInversion_gridItems hn hg
  have inputUnpacked : inputGrid .invg n.toNat (rows.map (unpackItem n.toNat)) = unpackGrid n.toNat rows :=
    gridItems_unpackGrid n.toNat rows ▸ inputGrid_gridItems hg
  have offersPacked := State.withOffer_offers { cmd := commandWord 4 strict n, payload := rows.map .row } hi
  have offersUnpacked :=
    State.withOffer_offers { cmd := commandWord 3 strict n, payload := rows.map (unpackItem n.toNat) } hi
  have latchPacked := step_of_admitted_invp offersPacked fitsPacked packed
  have latchUnpacked := (step_of_decodes offersUnpacked (decodeCommand_invg n strict)).trans
    (exec_invg_of_admits strict offersUnpacked fitsUnpacked unpacked)
  obtain ⟨t, runT, idleT, restT, respT⟩ := exists_counted_run_of_latch (hw.withOffer fitsPacked) offersPacked packed
    (inputGrid_map_row hlen) latchPacked
  obtain ⟨u, runU, idleU, restU, respU⟩ := exists_counted_run_of_latch (hw.withOffer fitsUnpacked) offersUnpacked unpacked
    inputUnpacked latchUnpacked
  obtain ⟨sts, out, cells, rowsOut⟩ := exists_refResponse_formats strict (unpackGrid n.toNat rows) n.toNat s.cfg.policy
  exact ⟨_, t, u, sts, out, runT, runU, idleT, idleU, restT, restU, cells ▸ respU, rowsOut ▸ respT⟩

/-! ## UNPACK, then PACK -/

/-- Settles O16: the cells that UNPACK answers are legal, and packing them gives the row back (40_codec.md R94). -/
theorem unpackThenPackReturnsTheRow : Obligations.UnpackThenPackReturnsTheRow := by
  intro s rest n x hc hn hx ho
  have hle : n.toNat ≤ s.cfg.nMax := hn.2
  have fits : x < 2 ^ s.cfg.nMax := hx.trans_le (Nat.pow_le_pow_right (by decide) hle)
  obtain ⟨roundTrip, -, -⟩ := codecRoundTrip
  refine ⟨s.answered rest 0x1 [.cells (unpackSeq x n.toNat)], unpackSeq x n.toNat, ?_, rfl, fun rest' => ?_⟩
  · rw [step_of_decodes ho (decodeCommand_unpack n), unpackSeq_eq_map_shiftRight]
    exact unpackAnswersTheBits s _ rest n x ho hn fits
  · have offersPack : State.Offers { s.answered rest 0x1 [.cells (unpackSeq x n.toNat)] with
        requests := { cmd := commandWord 2 false n, payload := [.cells (unpackSeq x n.toNat)] } :: rest' } _ rest' :=
      ⟨ho.1, rfl⟩
    have pack := packAnswersTheSum _ _ rest' n _ offersPack hc hn (unpackSeq_length x n.toNat)
      (unpackSeq_lt_two x n.toNat)
    have sum := packSeq_eq_sum (unpackSeq x n.toNat)
    rw [unpackSeq_length, roundTrip n.toNat x hx] at sum
    rw [← sum] at pack
    exact (step_of_decodes offersPack (decodeCommand_pack n)).trans pack

/-! ## The companion transform on packed rows -/

/-- Settles O56: the tested bit is the entry of the unpacked grid. -/
theorem packedApplyIsUnpackedApply : Obligations.PackedApplyIsUnpackedApply := by
  intro n rows v hlen
  refine List.map_congr_left fun i hi => congrArg xorSum (List.map_congr_left fun k hk => ?_)
  have hi : i < rows.length := hlen.symm ▸ List.mem_range.1 hi
  rw [entry_unpackGrid hi (List.mem_range.1 hk), ← toNat_testBit_eq_shiftRight_and_one]
  simp only [Bool.toNat_eq_one]

end Sys2Proof.Machine

/-! # The result and the matrix it inverts

A grid is a matrix over GF(2), and M_SWAP and M_ELIM keep the working matrix invertible where the input is. So `INV` falls
exactly on the singular inputs, and elsewhere the companion is the inverse (42_pipeline.md R134 to R138). -/

namespace Sys2Proof.Machine

/-! ## Bits as elements of GF(2) -/

/-- A bit as an element of the field with two elements (00_scope.md R14). -/
def bit (b : Bool) : ZMod 2 := if b then 1 else 0

@[simp] theorem bit_true : bit true = 1 := rfl

@[simp] theorem bit_false : bit false = 0 := rfl

theorem bit_injective : Function.Injective bit := by decide

theorem bit_xor (a b : Bool) : bit (xor a b) = bit a + bit b := by
  cases a <;> cases b <;> rfl

theorem bit_and (a b : Bool) : bit (a && b) = bit a * bit b := by
  cases a <;> cases b <;> rfl

/-- The XOR-sum of bits is their sum in the field. -/
theorem bit_parity (n : Nat) (f : Nat → Bool) : bit (parity ((List.range n).map f)) = ∑ m : Fin n, bit (f m) := by
  induction n with
  | zero => rfl
  | succ n ih =>
    rw [List.range_succ, List.map_append, parity_append, bit_xor, ih, Fin.sum_univ_castSucc]
    simp

/-! ## Grids as matrices -/

/-- The matrix of a grid. -/
def toMatrix (n : Nat) (g : Grid) : Matrix (Fin n) (Fin n) (ZMod 2) := .of fun i k => bit (entry g i k)

theorem toMatrix_apply {n : Nat} (g : Grid) (i k : Fin n) : toMatrix n g i k = bit (entry g i k) := rfl

theorem toMatrix_gridOf {n : Nat} (f : Nat → Nat → Bool) (i k : Fin n) : toMatrix n (gridOf n f) i k = bit (f i k) := by
  rw [toMatrix_apply, entry_gridOf f i.isLt k.isLt]

theorem toMatrix_storeGrid {n : Nat} (rows : List Nat) (i k : Fin n) :
    toMatrix n (storeGrid n rows) i k = bit (readBit rows i k) :=
  toMatrix_gridOf _ i k

/-- A grid is known from its matrix. -/
theorem gridOf_eq_of_toMatrix_eq {n : Nat} {f g : Nat → Nat → Bool}
    (h : toMatrix n (gridOf n f) = toMatrix n (gridOf n g)) : gridOf n f = gridOf n g := by
  refine (gridOf_eq_iff n f g).2 fun i hi k hk => bit_injective ?_
  have entries := congrFun (congrFun h ⟨i, hi⟩) ⟨k, hk⟩
  rwa [toMatrix_gridOf, toMatrix_gridOf] at entries

theorem toMatrix_identityGrid (n : Nat) : toMatrix n (identityGrid n) = 1 := by
  ext i k
  rw [identityGrid, toMatrix_gridOf, Matrix.one_apply]
  simp [bit, Fin.ext_iff]

theorem toMatrix_matMul (n : Nat) (a b : Grid) : toMatrix n (matMul n a b) = toMatrix n a * toMatrix n b := by
  ext i k
  rw [matMul, toMatrix_gridOf, bit_parity, Matrix.mul_apply]
  simp only [bit_and, toMatrix_apply]

theorem matMul_eq_identityGrid_iff (n : Nat) (a b : Grid) :
    matMul n a b = identityGrid n ↔ toMatrix n a * toMatrix n b = 1 := by
  rw [← toMatrix_matMul, ← toMatrix_identityGrid]
  exact ⟨congrArg _, gridOf_eq_of_toMatrix_eq⟩

/-- The grid of a matrix. -/
def ofMatrix {n : Nat} (a : Matrix (Fin n) (Fin n) (ZMod 2)) : Grid :=
  gridOf n fun i k => if h : i < n ∧ k < n then decide (a ⟨i, h.1⟩ ⟨k, h.2⟩ = 1) else false

theorem toMatrix_ofMatrix {n : Nat} (a : Matrix (Fin n) (Fin n) (ZMod 2)) : toMatrix n (ofMatrix a) = a := by
  have back : ∀ x : ZMod 2, bit (decide (x = 1)) = x := by decide
  ext i k
  simp [ofMatrix, toMatrix_gridOf, back]

/-- A grid's matrix is invertible exactly where some grid times it is the identity. -/
theorem isUnit_toMatrix_iff (n : Nat) (g : Grid) :
    IsUnit (toMatrix n g) ↔ ∃ b : Grid, matMul n b g = identityGrid n := by
  simp only [matMul_eq_identityGrid_iff]
  constructor
  · intro h
    obtain ⟨b, hb⟩ := h.exists_left_inv
    exact ⟨ofMatrix b, by rw [toMatrix_ofMatrix, hb]⟩
  · rintro ⟨b, hb⟩
    exact .of_mul_eq_one_right _ hb

/-- A grid with a zero row is singular. -/
theorem not_isUnit_toMatrix_of_zero_row {n i : Nat} {g : Grid} (hi : i < n) (hz : ∀ m < n, entry g i m = false) :
    ¬ IsUnit (toMatrix n g) := by
  intro h
  obtain ⟨b, hb⟩ := h.exists_right_inv
  have diagonal := congrFun (congrFun hb ⟨i, hi⟩) ⟨i, hi⟩
  have zero : ∀ m : Fin n, toMatrix n g ⟨i, hi⟩ m = 0 := fun m => congrArg bit (hz m m.isLt)
  simp [Matrix.mul_apply, zero] at diagonal

/-! ## The row operations keep a matrix invertible -/

/-- A packed row times a column vector. -/
def rowDot (n r : Nat) (x : Fin n → ZMod 2) : ZMod 2 := ∑ k : Fin n, bit (r.testBit k) * x k

theorem rowDot_xor (n a b : Nat) (x : Fin n → ZMod 2) : rowDot n (a ^^^ b) x = rowDot n a x + rowDot n b x := by
  simp only [rowDot, Nat.testBit_xor, bit_xor, add_mul, Finset.sum_add_distrib]

/-- The column vector is one that each row of the store takes to 0. -/
def InKernel (n : Nat) (rows : List Nat) (x : Fin n → ZMod 2) : Prop := ∀ i < n, rowDot n (readRow rows i) x = 0

theorem toMatrix_storeGrid_mulVec_eq_zero_iff (n : Nat) (rows : List Nat) (x : Fin n → ZMod 2) :
    (toMatrix n (storeGrid n rows)).mulVec x = 0 ↔ InKernel n rows x := by
  have row : ∀ i : Fin n, (toMatrix n (storeGrid n rows)).mulVec x i = rowDot n (readRow rows i) x := fun i => by
    simp only [Matrix.mulVec, dotProduct, toMatrix_storeGrid, rowDot, readBit]
  exact ⟨fun h i hi => (row ⟨i, hi⟩).symm.trans (congrFun h _), fun h => funext fun i => (row i).trans (h i i.isLt)⟩

/-- A store whose kernel is within that of an invertible one is invertible. -/
theorem isUnit_of_kernel_le {n : Nat} {rows rows' : List Nat} (hu : IsUnit (toMatrix n (storeGrid n rows)))
    (hk : ∀ x, InKernel n rows' x → InKernel n rows x) : IsUnit (toMatrix n (storeGrid n rows')) := by
  rw [← Matrix.mulVec_injective_iff_isUnit] at hu ⊢
  rw [← Matrix.coe_mulVecLin, injective_iff_map_eq_zero] at hu ⊢
  intro x hx
  have kernel := hk x ((toMatrix_storeGrid_mulVec_eq_zero_iff n rows' x).1 hx)
  exact hu x ((toMatrix_storeGrid_mulVec_eq_zero_iff n rows x).2 kernel)

/-- A column without a pivot after unit columns makes a matrix singular: the matrix takes both that column and the unit vector
of its index to that column, so the two would be the same, but the column has a 0 on the diagonal. -/
theorem not_isUnit_of_unit_columns {n : Nat} {a : Matrix (Fin n) (Fin n) (ZMod 2)} {j : Fin n}
    (hcols : ∀ k < j, ∀ i, a i k = if i = k then 1 else 0) (hlow : ∀ i, j ≤ i → a i j = 0) : ¬ IsUnit a := by
  intro h
  have product : a.mulVec (a.col j) = a.mulVec (Pi.single j 1) := by
    rw [Matrix.mulVec_single_one]
    ext i
    have terms : ∀ k, a i k * a k j = if i = k then a k j else 0 := fun k => by
      obtain hk | hk := lt_or_ge k j
      · rw [hcols k hk, ite_mul, one_mul, zero_mul]
      · simp [hlow k hk]
    simp [Matrix.mulVec, dotProduct, terms]
  have unitColumn : a j j = 1 := by
    simpa using congrFun (Matrix.mulVec_injective_of_isUnit h product) j
  exact one_ne_zero (unitColumn.symm.trans (hlow j le_rfl))

/-- After unit columns an invertible working matrix has a pivot (41_inverter.md R102, R112). -/
theorem findPivot_isSome_of_isUnit {n j : Nat} {rows : List Nat} (hj : j < n)
    (hu : IsUnit (toMatrix n (storeGrid n rows))) (hcols : ∀ k < j, ∀ i < n, readBit rows i k = decide (i = k)) :
    (findPivot rows n j).isSome = true := by
  cases hf : findPivot rows n j with
  | some i => rfl
  | none =>
    have none := (findPivot_eq_none_iff rows n j).1 hf
    refine absurd hu (not_isUnit_of_unit_columns (j := ⟨j, hj⟩) (fun k hk i => ?_) fun i hi => ?_)
    · rw [toMatrix_storeGrid, hcols k hk i i.isLt]
      simp [bit, Fin.ext_iff]
    · rw [toMatrix_storeGrid, none i hi i.isLt, bit_false]

/-! ## `INV` stays 1 on an invertible input -/

/-- On an invertible input the working matrix is invertible and every column so far had a pivot. -/
def State.RankKept (s : State) : Prop :=
  s.Loaded → IsUnit (toMatrix s.dim s.input) → s.inv = true ∧ IsUnit (toMatrix s.dim (storeGrid s.dim s.W))

section Rank

variable {s : State} (hw : s.Wf)
include hw

/-- M_INIT loads the input (41_inverter.md R101). -/
theorem storeGrid_initStep (hp : s.ph = .init) : storeGrid s.dim s.initStep.W = s.input :=
  congrArg RefState.working (refState_initStep hw hp)

/-- M_SWAP only changes the order of the rows. -/
theorem inKernel_of_swapStep (hp : s.ph = .swap) {x : Fin s.dim → ZMod 2} (hx : InKernel s.dim s.swapStep.W x) :
    InKernel s.dim s.W x := by
  intro i hi
  obtain ⟨hm, -, -⟩ := hw.readRow_swapStep hp hi
  obtain ⟨-, row, -⟩ := hw.readRow_swapStep hp hm
  rw [Equiv.swap_apply_self] at row
  rw [← row]
  exact hx _ hm

/-- M_ELIM adds row `j`, which it leaves as it was, to other rows. -/
theorem inKernel_of_elimStep (hp : s.ph = .elim) {x : Fin s.dim → ZMod 2} (hx : InKernel s.dim s.elimStep.W x) :
    InKernel s.dim s.W x := by
  have hj := hw.j_lt (loaded_of_ph hp (by decide))
  have pivotRow : rowDot s.dim (readRow s.W s.j.toNat) x = 0 := by
    obtain ⟨row, -⟩ := hw.readRow_elimStep hp hj
    have notInE : inElimSet s.W s.dim s.j.toNat s.j.toNat = false := by simp [inElimSet]
    rw [notInE, if_neg Bool.false_ne_true] at row
    rw [← row]
    exact hx _ hj
  intro i hi
  obtain ⟨row, -⟩ := hw.readRow_elimStep hp hi
  have zero := hx i hi
  rw [row] at zero
  split at zero
  · rwa [rowDot_xor, pivotRow, add_zero] at zero
  · exact zero

theorem StepsTo.keeps_rankKept {t : State} (hpp : s.PivotProgress) (hr : s.RankKept) (h : StepsTo s t) : t.RankKept := by
  cases h with
  | wait | answer => exact hr
  | start => exact fun hl => absurd rfl hl.2
  | init hp =>
    intro _ hu
    refine ⟨rfl, ?_⟩
    change IsUnit (toMatrix s.dim (storeGrid s.dim s.initStep.W))
    rw [storeGrid_initStep hw hp]
    exact hu
  | pivot hp =>
    intro _ hu
    have hl := loaded_of_ph hp (by decide)
    obtain ⟨hinv, unit⟩ := hr hl hu
    obtain ⟨hcols, -⟩ := hpp hl hinv
    simp only [State.columnsDone, hp] at hcols
    have found := findPivot_isSome_of_isUnit (hw.j_lt hl) unit hcols
    refine ⟨?_, unit⟩
    rw [State.pivotStep_inv, invAfterScan, hinv, found, Bool.and_self]
  | swap hp =>
    intro _ hu
    obtain ⟨hinv, unit⟩ := hr (loaded_of_ph hp (by decide)) hu
    exact ⟨hinv, isUnit_of_kernel_le unit fun _ => inKernel_of_swapStep hw hp⟩
  | elim hp =>
    intro _ hu
    obtain ⟨hinv, unit⟩ := hr (loaded_of_ph hp (by decide)) hu
    exact ⟨hinv, isUnit_of_kernel_le unit fun _ => inKernel_of_elimStep hw hp⟩
  | next hp =>
    intro _
    rw [State.input_congr (s := s) (by simp) (by simp), State.dim, State.nextStep_cmdr, State.nextStep_inv, State.nextStep_W]
    exact hr (loaded_of_ph hp (by decide))
  | fin => exact fun hl => absurd rfl hl.1

end Rank

/-! ## The run to M_FIN -/

/-- The invariants that the columns of an inversion keep. -/
structure State.Inverting (s : State) : Prop where
  wf : s.Wf
  pair : s.AugmentedPair
  progress : s.PivotProgress
  rank : s.RankKept

theorem State.Inverting.microStep {s : State} (h : s.Inverting) (hb : s.Busy) : s.microStep.Inverting :=
  have steps := stepsTo_of_step (step_of_busy hb)
  ⟨steps.keeps_wf h.wf, steps.keeps_augmentedPair h.wf h.pair, steps.keeps_pivotProgress h.wf h.progress,
    steps.keeps_rankKept h.wf h.progress h.rank⟩

/-- Before M_INIT the stores are not loaded, and only the shape of the state matters. -/
theorem State.Inverting.of_init {s : State} (hw : s.Wf) (hp : s.ph = .init) : s.Inverting :=
  have not_loaded : ¬ s.Loaded := fun hl => hl.2 hp
  ⟨hw, (absurd · not_loaded), (absurd · not_loaded), (absurd · not_loaded)⟩

/-- The converse of `CompletesIn.of_busy`, for a step that is not the last. -/
theorem CompletesIn.microStep {s t : State} {k : Nat} (hb : s.Busy) (h : CompletesIn s t (k + 1)) :
    CompletesIn s.microStep t k := by
  obtain ⟨hrun, hidle, hbefore⟩ := h
  have hs := step_of_busy hb
  refine ⟨by rwa [runFor_succ_of_step hs] at hrun, hidle, fun m hm => ?_⟩
  have before := hbefore (m + 1) (by omega)
  rwa [runFor_succ_of_step hs] at before

theorem CompletesIn.eq_of_idle {s t : State} {k : Nat} (hi : s.ph = .idle) (h : CompletesIn s t k) : t = s := by
  obtain ⟨hrun, -, hbefore⟩ := h
  cases k with
  | zero => exact (Option.some.inj hrun).symm
  | succ k => simpa [runFor, hi] using hbefore 0 (by omega)

/-- A run that completes ends with M_FIN, in a state of the same command with all invariants. -/
theorem CompletesIn.exists_fin {s t : State} {k : Nat} (h : CompletesIn s t k) (hs : s.Inverting) (hb : s.Busy) :
    ∃ u : State, u.Inverting ∧ u.ph = .fin ∧ t = u.finStep ∧ u.cmdr = s.cmdr ∧ u.IB = s.IB := by
  induction k generalizing s with
  | zero =>
    obtain ⟨hrun, hidle, -⟩ := h
    exact absurd (Option.some.inj hrun ▸ hidle) hb
  | succ k ih =>
    have rest := h.microStep hb
    by_cases hf : s.ph = .fin
    · rw [microStep_of_fin hf] at rest
      exact ⟨s, hs, hf, rest.eq_of_idle rfl, rfl, rfl⟩
    · obtain ⟨-, -, busy, -⟩ := microStep_goes_on hs.wf hb hf
      obtain ⟨-, constant⟩ := commandIsConstantWhileBusy s s.microStep (step_of_busy hb)
      obtain ⟨hm, hI⟩ := constant hb
      obtain ⟨u, hu, hp, ht, hum, huI⟩ := ih rest (hs.microStep hb) busy
      exact ⟨u, hu, hp, ht, hum.trans hm, huI.trans hI⟩

/-! ## What an inversion computes -/

/-- `INV` of the completed command is 1 exactly on an invertible input, and then the companion is its left inverse. -/
structure Inverts (s t : State) : Prop where
  inv_iff : t.inv = true ↔ IsUnit (toMatrix s.dim s.input)
  left_inverse : t.inv = true → toMatrix s.dim (storeGrid s.dim t.C) * toMatrix s.dim s.input = 1

/-- At M_FIN the companion times the input is the identity if `INV` is 1, and `INV` is 1 if the input is invertible. -/
theorem State.Inverting.inverts_finStep {u : State} (h : u.Inverting) (hp : u.ph = .fin) : Inverts u u.finStep := by
  have left : u.inv = true → toMatrix u.dim (storeGrid u.dim u.C) * toMatrix u.dim u.input = 1 := fun hinv => by
    obtain ⟨-, product⟩ := workingGridIsIdentityAtFin u h.wf h.pair h.progress hp hinv
    exact (matMul_eq_identityGrid_iff _ _ _).1 product
  have kept := h.rank (loaded_of_ph hp (by decide))
  exact ⟨⟨fun hinv => .of_mul_eq_one_right _ (left hinv), fun hu => (kept hu).1⟩, left⟩

theorem CompletesIn.inverts {s t : State} {k : Nat} (hw : s.Wf) (hp : s.ph = .init) (h : CompletesIn s t k) :
    Inverts s t := by
  obtain ⟨u, hu, hfin, rfl, hm, hI⟩ := h.exists_fin (.of_init hw hp) (busy_of_ph hp (by decide))
  have hdim : u.dim = s.dim := by rw [State.dim, hm]
  obtain ⟨hinv, hleft⟩ := hu.inverts_finStep hfin
  rw [State.input_congr hm hI, hdim] at hinv hleft
  exact ⟨hinv, hleft⟩

/-- A store with the matrix of the input holds the input. -/
theorem storeGrid_eq_input {s : State} {rows : List Nat}
    (h : toMatrix s.dim (storeGrid s.dim rows) = toMatrix s.dim s.input) : storeGrid s.dim rows = s.input :=
  gridOf_eq_of_toMatrix_eq h

/-- Settles O51: a left inverse of a square matrix is a right inverse too. -/
theorem resultIsTheTwoSidedInverse : Obligations.ResultIsTheTwoSidedInverse := by
  intro s hw hp
  obtain ⟨t, ends, -⟩ := exists_endsAs_refRun hw hp
  refine ⟨t, _, ends.completes, fun hinv => ?_⟩
  have left := (ends.completes.inverts hw hp).left_inverse hinv
  exact ⟨(matMul_eq_identityGrid_iff _ _ _).2 (mul_eq_one_comm.1 left), (matMul_eq_identityGrid_iff _ _ _).2 left⟩

/-- Settles O52: `INV` is 1 exactly where the input has an inverse, and a grid with a zero row has none. -/
theorem singularInputsAreDetected : Obligations.SingularInputsAreDetected := by
  intro s hw hp
  obtain ⟨t, ends, -⟩ := exists_endsAs_refRun hw hp
  have inverts := ends.completes.inverts hw hp
  refine ⟨t, _, ends.completes, ?_, ?_, fun hstrict hinv => ?_⟩
  · rintro ⟨i, hi, hz⟩
    rw [← Bool.not_eq_true, inverts.inv_iff]
    exact not_isUnit_toMatrix_of_zero_row hi hz
  · rw [← Bool.not_eq_true, inverts.inv_iff, isUnit_toMatrix_iff]
  · have singular := ends.inv.symm.trans hinv
    rw [ends.responses, RefState.response, resultResponse, hstrict, singular]
    rfl

/-- Settles O53: the identity is invertible, and its left inverse is the identity. -/
theorem identityInvertsToItself : Obligations.IdentityInvertsToItself := by
  intro s hw hp hinput
  obtain ⟨t, ends, -⟩ := exists_endsAs_refRun hw hp
  have inverts := ends.completes.inverts hw hp
  have one : toMatrix s.dim s.input = 1 := hinput ▸ toMatrix_identityGrid s.dim
  have hinv : t.inv = true := inverts.inv_iff.2 (one ▸ isUnit_one)
  refine ⟨t, _, ends.completes, hinv, ?_⟩
  have left := inverts.left_inverse hinv
  rw [one, mul_one] at left
  rw [← hinput]
  exact storeGrid_eq_input (left.trans one.symm)

/-- Settles O54: the first input is a left inverse of the result, and a left inverse of an invertible matrix is unique. -/
theorem inverseOfTheInverse : Obligations.InverseOfTheInverse := by
  intro s hw hp
  obtain ⟨t, ends, -⟩ := exists_endsAs_refRun hw hp
  refine ⟨t, _, ends.completes, fun hinv s' hw' hp' hdim hinput => ?_⟩
  have left := (ends.completes.inverts hw hp).left_inverse hinv
  obtain ⟨t', ends', -⟩ := exists_endsAs_refRun hw' hp'
  obtain ⟨hiff, hleft'⟩ := ends'.completes.inverts hw' hp'
  rw [hdim, hinput] at hiff hleft'
  have hinv' : t'.inv = true := hiff.2 (.of_mul_eq_one _ left)
  exact ⟨t', _, ends'.completes, hinv', storeGrid_eq_input (left_inv_eq_right_inv (hleft' hinv') left)⟩

/-! ## The companion transform -/

/-- Bit `b` of each element of a vector. -/
def bitPlane (n b : Nat) (v : List Nat) : Fin n → ZMod 2 := fun i => bit (((v[i.val]?).getD 0).testBit b)

theorem testBit_xorSum (xs : List Nat) (b : Nat) : (xorSum xs).testBit b = parity (xs.map (·.testBit b)) := by
  induction xs with
  | nil => exact Nat.zero_testBit b
  | cons x xs ih => rw [List.map_cons, parity_cons, ← ih, ← Nat.testBit_xor]; rfl

/-- On each bit plane `apply` is the product of the matrix and the vector (00_scope.md R15). -/
theorem bitPlane_apply (n b : Nat) (m : Grid) (v : List Nat) :
    bitPlane n b (apply n m v) = (toMatrix n m).mulVec (bitPlane n b v) := by
  have selected : ∀ (e : Bool) (x : Nat), (if e then x else 0).testBit b = (e && x.testBit b) := by
    intro e x
    cases e <;> simp
  funext i
  rw [bitPlane, apply, List.getElem?_map, List.getElem?_range i.isLt, Option.map_some, Option.getD_some, testBit_xorSum,
    List.map_map]
  simp only [Function.comp_def, selected, bit_parity, bit_and]
  rfl

theorem vector_ext {n : Nat} {v w : List Nat} (hv : v.length = n) (hw : w.length = n)
    (h : ∀ b, bitPlane n b v = bitPlane n b w) : v = w := by
  refine List.ext_getElem (hv.trans hw.symm) fun i hi hi' => Nat.eq_of_testBit_eq fun b => bit_injective ?_
  simpa [bitPlane, hi, hi'] using congrFun (h b) ⟨i, hv ▸ hi⟩

/-- Two matrices with product 1 undo each other. -/
theorem apply_apply_of_mul_eq_one {n : Nat} {a b : Grid} {v : List Nat} (h : toMatrix n a * toMatrix n b = 1)
    (hv : v.length = n) : apply n a (apply n b v) = v := by
  refine vector_ext (by simp [apply]) hv fun k => ?_
  rw [bitPlane_apply, bitPlane_apply, Matrix.mulVec_mulVec, h, Matrix.one_mulVec]

/-- Settles O55: bit plane by bit plane, the two matrices undo each other in both orders. -/
theorem vectorRoundTrip : Obligations.VectorRoundTrip := by
  intro s v hw hp hv
  obtain ⟨t, ends, -⟩ := exists_endsAs_refRun hw hp
  refine ⟨t, _, ends.completes, fun hinv => ?_⟩
  have left := (ends.completes.inverts hw hp).left_inverse hinv
  exact ⟨apply_apply_of_mul_eq_one left hv, apply_apply_of_mul_eq_one (mul_eq_one_comm.1 left) hv⟩

end Sys2Proof.Machine

/-! # Errors at acceptance, and what IDLE answers

A word that is no command, the checks of each command in the order of 60_exceptions.md R155, and the frame of an answer
(R156). -/

namespace Sys2Proof.Machine

/-! ## Waiting and illegal words -/

/-- Settles O7: with nothing on offer the fetch waits. -/
theorem idleWithoutRequestWaits : Obligations.IdleWithoutRequestWaits := by
  intro s hi hr
  simp [step, fetch_of_idle hi, hr]

/-- A word with illegal fields decodes to no command (60_exceptions.md R151). -/
theorem step_of_illegalFields {s : State} {r : Request} {rest : List Request} (ho : s.Offers r rest)
    (hw : IllegalFields r.cmd) : step s = .next (s.answered rest (stsError .illegalCommand) []) := by
  cases hd : decodeCommand r.cmd with
  | ok i => exact absurd hw (not_illegalFields_of_ok hd)
  | error e => rw [step_of_illegal ho hd, raise_eq_answered _ ho]

/-- Settles O8: the word's fields are illegal, so it is rejected whatever its payload. -/
theorem illegalCommandIsRejected : Obligations.IllegalCommandIsRejected := by
  intro s r rest ho hw
  refine step_of_illegalFields ho ?_
  obtain hrsv1 | hrsv0 | hop | hop | ⟨hop, hstrict⟩ := hw
  · exact .inl hrsv1
  · exact .inr (.inl hrsv0)
  · exact .inr (.inr (.inl (congrArg BitVec.toNat hop)))
  · exact .inr (.inr (.inr (.inl hop)))
  · exact .inr (.inr (.inr (.inr ⟨hop.imp (congrArg BitVec.toNat) (congrArg BitVec.toNat), hstrict⟩)))

/-! ## The codec's checks -/

theorem unpackVerdict_of_bad_shape {c : Config} {n : Dim} {p : List Item} (h : ¬ Dim.WellFormed c n ∨ p.length ≠ 1) :
    unpackVerdict c n p = .raise .invalidDimension := by
  obtain ⟨r, hn, rfl, -⟩ | ⟨-, hv⟩ := unpackVerdict_cases c n p
  · exact absurd rfl (h.resolve_left (not_not.2 hn))
  · exact hv

theorem packVerdict_of_bad_shape {c : Config} {n : Dim} {p : List Item}
    (h : ¬ Dim.WellFormed c n ∨ p.length ≠ 1 ∨ ∃ cs, p = [.cells cs] ∧ cs.length ≠ n.toNat) :
    packVerdict c n p = .raise .invalidDimension := by
  have illegal : ∀ cs, Dim.WellFormed c n → p = [.cells cs] → cs.length ≠ n.toNat := by
    rintro cs hn rfl
    obtain hbad | hbad | ⟨cs', hp, hlen⟩ := h
    · exact absurd hn hbad
    · exact absurd rfl hbad
    · obtain rfl : cs = cs' := by simpa using hp
      exact hlen
  obtain ⟨cs, hn, hp, hlen, -⟩ | ⟨cs, hn, hp, hlen, -⟩ | ⟨-, hv⟩ := packVerdict_cases c n p
  · exact absurd hlen (illegal cs hn hp)
  · exact absurd hlen (illegal cs hn hp)
  · exact hv

theorem packVerdict_of_bad_cell {c : Config} {n : Dim} {cs : List Nat} (hn : Dim.WellFormed c n)
    (hlen : cs.length = n.toNat) (hbad : ∃ x ∈ cs, 2 ≤ x) : packVerdict c n [.cells cs] = .raise .invalidBitValue := by
  obtain ⟨cs', -, hp, -, hlegal, -⟩ | ⟨-, -, -, -, -, hv⟩ | ⟨hshape, -⟩ := packVerdict_cases c n [.cells cs]
  · obtain rfl : cs = cs' := by simpa using hp
    obtain ⟨x, hx, htwo⟩ := hbad
    exact absurd (hlegal x hx) (not_lt.2 htwo)
  · exact hv
  · exact absurd hlen (hshape.resolve_left (not_not.2 hn) cs rfl)

/-- Settles O17: the dimension and the shape are checked before the cells. -/
theorem codecErrorsInOrder : Obligations.CodecErrorsInOrder := by
  intro s r rest n ho hf
  refine ⟨fun h => ?_, fun h => ?_, fun cs hn hp hlen hbad => ?_⟩
  · exact accept_of_raise ho hf (unpackVerdict_of_bad_shape h)
  · exact accept_of_raise ho hf (packVerdict_of_bad_shape h)
  · exact accept_of_raise ho hf (hp ▸ packVerdict_of_bad_cell hn hlen hbad)

/-! ## The inverter's checks -/

theorem invpVerdict_of_bad_shape {c : Config} {n : Dim} {p : List Item} (strict : Bool)
    (h : ¬ Dim.WellFormed c n ∨ p.length ≠ n.toNat) : invpVerdict c n strict p = .raise .invalidDimension := by
  obtain ⟨hn, ⟨hlen, -⟩, -⟩ | ⟨-, hv⟩ := invpVerdict_cases c n strict p
  · exact absurd hlen (h.resolve_left (not_not.2 hn))
  · exact hv

theorem isSeqOf_iff (n : Nat) (it : Item) : isSeqOf n it = true ↔ ∃ cs, it = .cells cs ∧ cs.length = n := by
  cases it <;> simp [isSeqOf]

theorem invgVerdict_of_bad_shape {c : Config} {n : Dim} {p : List Item} (strict : Bool)
    (h : ¬ Dim.WellFormed c n ∨ p.length ≠ n.toNat ∨ ∃ cs, .cells cs ∈ p ∧ cs.length ≠ n.toNat) :
    invgVerdict c n strict p = .raise .invalidDimension := by
  have illegal : Dim.WellFormed c n → ¬ (p.length = n.toNat ∧ p.all (isSeqOf n.toNat) = true) := by
    rintro hn ⟨hlen, hseq⟩
    obtain hbad | hbad | ⟨cs, hcs, hbad⟩ := h
    · exact hbad hn
    · exact hbad hlen
    · exact hbad (by simpa [isSeqOf] using List.all_eq_true.1 hseq _ hcs)
  obtain ⟨hn, hshape, -⟩ | ⟨hn, hshape, -⟩ | ⟨-, hv⟩ := invgVerdict_cases c n strict p
  · exact absurd hshape (illegal hn)
  · exact absurd hshape (illegal hn)
  · exact hv

theorem invgVerdict_of_bad_cell {c : Config} {n : Dim} {p : List Item} (strict : Bool) (hn : Dim.WellFormed c n)
    (hlen : p.length = n.toNat) (hseq : ∀ it ∈ p, ∃ cs, it = .cells cs ∧ cs.length = n.toNat)
    (hbad : ∃ cs, .cells cs ∈ p ∧ ∃ x ∈ cs, 2 ≤ x) : invgVerdict c n strict p = .raise .invalidBitValue := by
  obtain ⟨-, -, hlegal, -⟩ | ⟨-, -, -, hv⟩ | ⟨hshape, -⟩ := invgVerdict_cases c n strict p
  · obtain ⟨cs, hcs, hx⟩ := hbad
    exact absurd (by simpa [hasBadCell] using hx) (List.any_eq_false.1 hlegal _ hcs)
  · exact hv
  · have shape : p.all (isSeqOf n.toNat) = true := List.all_eq_true.2 fun it hit => (isSeqOf_iff _ it).2 (hseq it hit)
    exact absurd ⟨hlen, shape⟩ (hshape.resolve_left (not_not.2 hn))

/-- Settles O18: as for the codec, and no check reads `strict`. -/
theorem inversionErrorsInOrder : Obligations.InversionErrorsInOrder := by
  intro s r rest n strict ho hf
  refine ⟨fun h => ?_, fun h => ?_, fun hn hlen hseq hbad => ?_⟩
  · exact accept_of_raise ho hf (invpVerdict_of_bad_shape strict h)
  · exact accept_of_raise ho hf (invgVerdict_of_bad_shape strict h)
  · exact accept_of_raise ho hf (invgVerdict_of_bad_cell strict hn hlen hseq hbad)

/-! ## The frame of an answer -/

theorem takeRequest_respond_eq_answered {s : State} {r : Request} {rest : List Request} (sts : StsWord)
    (payload : List Item) (ho : s.Offers r rest) : s.takeRequest.respond sts payload = s.answered rest sts payload := by
  simp [State.takeRequest, State.respond, State.answered, ho.2]

/-- A step from IDLE waits or concludes the acceptance of the request at the front (10_state.md R42). -/
theorem step_idle_cases {s t : State} (h : step s = .next t) (hi : s.ph = .idle) :
    t = s ∨ ∃ r rest, s.Offers r rest ∧
      t = s.conclude (offerVerdict s.cfg r).1 r.payload (offerVerdict s.cfg r).2 := by
  cases hr : s.requests with
  | nil => exact .inl (by simpa [idleWithoutRequestWaits s hi hr] using h.symm)
  | cons r rest =>
    refine .inr ⟨r, rest, ⟨hi, hr⟩, ?_⟩
    cases hd : decodeCommand r.cmd with
    | error e =>
      rw [step_of_illegal ⟨hi, hr⟩ hd] at h
      simpa [offerVerdict_of_illegal s.cfg hd] using h.symm
    | ok i =>
      obtain ⟨verdict, he, hv⟩ := exec_eq_accept_offerVerdict hd s
      rw [step_of_decodes ⟨hi, hr⟩ hd, he] at h
      obtain ⟨r', rest', -, hr', -, rfl⟩ := accept_eq_next h
      obtain ⟨rfl, rfl⟩ := List.cons.inj (hr.symm.trans hr')
      rw [hv]

/-- Singularity is found by the sequencer, never by the checks at acceptance (60_exceptions.md R154, R155). -/
theorem offerVerdict_ne_notInvertible (c : Config) (r : Request) : (offerVerdict c r).2 ≠ .raise .notInvertible := by
  cases hd : decodeCommand r.cmd with
  | error e => simp [offerVerdict_of_illegal c hd]
  | ok i =>
    obtain ⟨n, strict, rfl | rfl | rfl | rfl⟩ := decodeCommand_eq_ok hd <;> simp only [offerVerdict, hd]
    case inl =>
      obtain ⟨_, -, -, h⟩ | ⟨-, h⟩ := unpackVerdict_cases c n r.payload <;> simp [h]
    case inr.inl =>
      obtain ⟨_, -, -, -, -, h⟩ | ⟨_, -, -, -, -, h⟩ | ⟨-, h⟩ := packVerdict_cases c n r.payload <;> simp [h]
    case inr.inr.inl =>
      obtain ⟨-, -, -, h⟩ | ⟨-, -, -, h⟩ | ⟨-, h⟩ := invgVerdict_cases c n strict r.payload <;> simp [h]
    case inr.inr.inr =>
      obtain ⟨-, -, h⟩ | ⟨-, h⟩ := invpVerdict_cases c n strict r.payload <;> simp [h]

/-- The status words of the errors that acceptance can raise (30_encoding.md R75). -/
theorem stsError_mem_of_ne_notInvertible {e : ErrorKind} (h : e ≠ .notInvertible) :
    stsError e ∈ ([0x10, 0x20, 0x40] : List StsWord) := by
  cases e with
  | notInvertible => exact absurd rfl h
  | illegalCommand | invalidDimension | invalidBitValue => decide

/-- Settles O20: an error and a codec result answer the request, and the start of an inversion emits nothing. -/
theorem answerFromIdleChangesNoRegister : Obligations.AnswerFromIdleChangesNoRegister := by
  intro s t h hi hne
  obtain rfl | ⟨r, rest, ho, rfl⟩ := step_idle_cases h hi
  · exact absurd rfl hne
  · cases hv : (offerVerdict s.cfg r).2 with
    | raise e =>
      have atAcceptance : e ≠ .notInvertible := fun he => offerVerdict_ne_notInvertible s.cfg r (he ▸ hv)
      exact ⟨r, rest, stsError e, [], ho.2, raise_eq_answered e ho,
        fun _ => ⟨rfl, stsError_mem_of_ne_notInvertible atAcceptance⟩⟩
    | done out =>
      exact ⟨r, rest, stsOk, out, ho.2, takeRequest_respond_eq_answered stsOk out ho, fun hok => absurd hok (by decide)⟩
    | start op strict =>
      rw [hv] at hne
      exact absurd rfl hne

end Sys2Proof.Machine

/-! # Reset, and that the machine goes on

An idle block need only have its stores in shape, since every other clause of the invariant speaks of a command in progress. -/

namespace Sys2Proof.Machine

/-! ## The idle block -/

section Idle

variable {s : State}

theorem not_loaded_of_idle (hi : s.ph = .idle) : ¬ s.Loaded := fun hl => hl.1 hi

theorem State.Wf.of_idle (hi : s.ph = .idle) (hc : s.cfg.WellFormed) (hs : s.StoresWf) (hr : s.RequestsFit) : s.Wf := by
  have hcmd : s.CommandWf := fun hb => absurd hi hb
  have hseq : s.SequencerWf := by simp [State.SequencerWf, hi]
  have hhigh : s.HighBitsZero := fun hl => absurd hl (not_loaded_of_idle hi)
  exact ⟨hc, hs, hcmd, hseq, hhigh, hr⟩

end Idle

/-! ## Reset -/

theorem payloadFits_reset (c : Config) : payloadFits c (List.replicate c.nMax (.row 0)) = true := by
  refine List.all_eq_true.2 fun it hit => ?_
  obtain rfl := List.eq_of_mem_replicate hit
  exact decide_eq_true (Nat.two_pow_pos c.nMax)

/-- After reset the stores have their shape (10_state.md R21, R22, R26). -/
theorem storesWf_resetOf (c : Config) : (State.resetOf c).StoresWf :=
  ⟨Memory.wf_reset c, Memory.wf_reset c, List.length_replicate, payloadFits_reset c⟩

theorem wf_resetOf {c : Config} (hc : c.WellFormed) : (State.resetOf c).Wf :=
  .of_idle (State.resetOf_ph c) hc (storesWf_resetOf c) (by simp [State.RequestsFit])

theorem State.Wf.resetEvent {s : State} (hw : s.Wf) : s.resetEvent.Wf :=
  .of_idle s.resetEvent_ph hw.cfgWf (storesWf_resetOf s.cfg) hw.requestsFit

/-- Settles O29: the two invariants of a command in progress ask nothing of an idle block. -/
theorem resetIsIdleAndWellFormed : Obligations.ResetIsIdleAndWellFormed := by
  refine ⟨rfl, rfl, fun c hc => ?_⟩
  have hi := State.resetOf_ph c
  exact ⟨hi, wf_resetOf hc, fun hl => absurd hl (not_loaded_of_idle hi), fun hl => absurd hl (not_loaded_of_idle hi)⟩

/-- Settles O30: the event takes nothing from the state it finds but the parameters and the messages. -/
theorem resetEventAbandonsTheCommand : Obligations.ResetEventAbandonsTheCommand :=
  fun s hw => ⟨s.resetEvent_ph, s.resetEvent_cfg, s.resetEvent_responses, s.resetEvent_requests, hw.resetEvent⟩

/-! ## The machine goes on -/

/-- Settles O32: a busy block has the micro-operation of its phase, an idle one waits or takes the request at the front,
whose items fit. -/
theorem stepNeverStops : Obligations.StepNeverStops := by
  intro s hw
  by_cases hi : s.ph = .idle
  · cases hr : s.requests with
    | nil => exact ⟨s, idleWithoutRequestWaits s hi hr⟩
    | cons r rest =>
      have fits : payloadFits s.cfg r.payload = true := hw.requestsFit r (hr ▸ List.mem_cons_self)
      exact ⟨_, step_of_offer ⟨hi, hr⟩ fits⟩
  · exact ⟨s.microStep, step_of_busy hi⟩

end Sys2Proof.Machine

/-! # The refusal of an item that its type cannot hold -/

namespace Sys2Proof.Machine

/-- Acceptance looks at the items' widths before any check of the command (93_implementation_defined.md U13). -/
theorem accept_of_not_fits {s : State} {r : Request} {rest : List Request} (n : Dim) (verdict : List Item → Verdict)
    (ho : s.Offers r rest) (hf : payloadFits s.cfg r.payload = false) : accept s n verdict = .refused .itemTooWide := by
  obtain ⟨hi, hr⟩ := ho
  simp [accept, hi, hr, hf]

/-- Settles O10: every command is an acceptance, which refuses whatever the command's own checks are. -/
theorem tooWideItemIsRefused : Obligations.TooWideItemIsRefused := by
  intro s r rest n strict ho hf i hi
  have refuses : ∀ verdict, exec i s = accept s n verdict → exec i s = .refused .itemTooWide :=
    fun verdict he => he.trans (accept_of_not_fits n verdict ho hf)
  simp only [List.mem_cons, List.not_mem_nil, or_false] at hi
  obtain rfl | rfl | rfl | rfl := hi
  · exact refuses (unpackVerdict s.cfg n) rfl
  · exact refuses (packVerdict s.cfg n) rfl
  · exact refuses (invgVerdict s.cfg n strict) rfl
  · exact refuses (invpVerdict s.cfg n strict) rfl

end Sys2Proof.Machine
